-- ==== Sys2Proof/Word.lean ====
section
/-! DEFINITION. The value types of the texture pixel decoder: bytes, destination pixels and the two scratch tables. -/

namespace Sys2Proof

/-- A byte is 8 bits and holds an unsigned value in 0..255 (R10, R11). -/
abbrev Byte := BitVec 8

/-- A destination pixel: four bytes in the order R, G, B, A (R10, R13, R49). -/
structure Pixel where
  r : Byte
  g : Byte
  b : Byte
  a : Byte
  deriving DecidableEq, Repr, Inhabited

/-- The color table `CT[0..3]`, four RGBA entries (R28). -/
structure ColorTable where
  c0 : Pixel
  c1 : Pixel
  c2 : Pixel
  c3 : Pixel
  deriving DecidableEq, Repr, Inhabited

/-- The alpha table `AT[0..7]`: eight bytes, of which entry 7 may be *unset* (`none`) (R29, R138). -/
structure AlphaTable where
  a0 : Byte
  a1 : Byte
  a2 : Byte
  a3 : Byte
  a4 : Byte
  a5 : Byte
  a6 : Byte
  a7 : Option Byte
  deriving DecidableEq, Repr, Inhabited

/-- The transient datapath state of R20: `CT`, `AT`, the mode bits `FOUR` and `A8MODE`, the black alpha `BA`
(R28 to R31). -/
structure Datapath where
  ct     : ColorTable
  atab   : AlphaTable
  four   : Bool
  a8mode : Bool
  ba     : Byte
  deriving DecidableEq, Repr, Inhabited

end Sys2Proof
end

