-- ==== Sys2Proof/Syntax.lean ====
section
/-! DEFINITION. The requests of the block: one constructor per row of spec/opcode_table.json, and the reasons and
forms that the decoder and the assembler speak of. -/

namespace Sys2Proof

/-- A request names a format, a width `W` and a height `H` (R4, R60, R62). There is no other operand in the command
word (R65); the windows and their lengths are in the machine's state. -/
inductive Instr where
  | rgb565          (w h : Nat)
  | dxt1            (w h : Nat)
  | dxt3            (w h : Nat)
  | dxt5            (w h : Nat)
  | bgr565          (w h : Nat)
  | bgrx5551        (w h : Nat)
  | bgra4444        (w h : Nat)
  | dxt1OneBitAlpha (w h : Nat)
  | bgra5551        (w h : Nat)
  deriving DecidableEq, Repr

/-- The width operand `W`. -/
def Instr.width : Instr → Nat
  | .rgb565 w _ | .dxt1 w _ | .dxt3 w _ | .dxt5 w _ | .bgr565 w _ | .bgrx5551 w _ | .bgra4444 w _
  | .dxt1OneBitAlpha w _ | .bgra5551 w _ => w

/-- The height operand `H`. -/
def Instr.height : Instr → Nat
  | .rgb565 _ h | .dxt1 _ h | .dxt3 _ h | .dxt5 _ h | .bgr565 _ h | .bgrx5551 _ h | .bgra4444 _ h
  | .dxt1OneBitAlpha _ h | .bgra5551 _ h => h

/-- Why a command word is refused (R161). -/
inductive RefuseReason where
  | badFormat
  | reservedBits
  deriving DecidableEq, Repr

/-- What a command word disassembles to (R69): a `DECODE` statement, or a raw `.cmd` word. -/
inductive Disassembly where
  | statement (i : Instr)
  | rawCmd    (cmd : BitVec 64)
  deriving DecidableEq, Repr

end Sys2Proof
end

