-- ==== Sys2Proof/WellFormed.lean ====
section
/-! DEFINITION. Which terms of `Instr` are requests a command word can carry. -/

namespace Sys2Proof

/-- `W` and `H` are 16-bit unsigned fields, every value of which is legal, 0 included (R10, R61, R65, R68). -/
def Instr.wellFormed (i : Instr) : Bool :=
  decide (i.width < 65536) && decide (i.height < 65536)

end Sys2Proof
end

