-- ==== Sys2Proof/Decode.lean ====
section
/-! DEFINITION. The command word: decoder (total on all 2^64 words), encoder, assembler and disassembler. -/

namespace Sys2Proof

/-- Field `FMT`, bits `[7:0]` (R61). -/
def cmdFmt (cmd : BitVec 64) : BitVec 8 := cmd.extractLsb' 0 8

/-- Field `RSV0`, bits `[15:8]` (R61). -/
def cmdRsv0 (cmd : BitVec 64) : BitVec 8 := cmd.extractLsb' 8 8

/-- Field `WIDTH`, bits `[31:16]` (R61). -/
def cmdWidth (cmd : BitVec 64) : BitVec 16 := cmd.extractLsb' 16 16

/-- Field `HEIGHT`, bits `[47:32]` (R61). -/
def cmdHeight (cmd : BitVec 64) : BitVec 16 := cmd.extractLsb' 32 16

/-- Field `RSV1`, bits `[63:48]` (R61). -/
def cmdRsv1 (cmd : BitVec 64) : BitVec 16 := cmd.extractLsb' 48 16

/-- The opcode map of R62: the request that a format code names, for given `W` and `H`; none for every other code
(R63). -/
def requestOfFmt (fmt : BitVec 8) (w h : Nat) : Option Instr :=
  if fmt = 0x04 then some (.rgb565 w h)
  else if fmt = 0x0D then some (.dxt1 w h)
  else if fmt = 0x0E then some (.dxt3 w h)
  else if fmt = 0x0F then some (.dxt5 w h)
  else if fmt = 0x11 then some (.bgr565 w h)
  else if fmt = 0x12 then some (.bgrx5551 w h)
  else if fmt = 0x13 then some (.bgra4444 w h)
  else if fmt = 0x14 then some (.dxt1OneBitAlpha w h)
  else if fmt = 0x15 then some (.bgra5551 w h)
  else none

/-- The decoder (R66, R69): reserved bits are checked before the format (R165); `W` and `H` are zero-extended from
their fields (R61, R65). -/
def decode (cmd : BitVec 64) : Except RefuseReason Instr :=
  if cmdRsv0 cmd ≠ 0 ∨ cmdRsv1 cmd ≠ 0 then .error .reservedBits
  else
    match requestOfFmt (cmdFmt cmd) (cmdWidth cmd).toNat (cmdHeight cmd).toNat with
    | none   => .error .badFormat
    | some i => .ok i

/-- The format code of a request (R62). -/
def fmtCode : Instr → BitVec 8
  | .rgb565 _ _          => 0x04
  | .dxt1 _ _            => 0x0D
  | .dxt3 _ _            => 0x0E
  | .dxt5 _ _            => 0x0F
  | .bgr565 _ _          => 0x11
  | .bgrx5551 _ _        => 0x12
  | .bgra4444 _ _        => 0x13
  | .dxt1OneBitAlpha _ _ => 0x14
  | .bgra5551 _ _        => 0x15

/-- The command word of a request, `FMT | (W << 16) | (H << 32)` with the reserved fields 0 (R61, R68). -/
def encode (i : Instr) : BitVec 64 :=
  (fmtCode i).setWidth 64 ||| ((BitVec.ofNat 16 i.width).setWidth 64 <<< 16) |||
    ((BitVec.ofNat 16 i.height).setWidth 64 <<< 32)

/-- The instruction that the decoder reads from `nbits` bits of value `w`, bit 0 the least significant bit of the
command word; the bits above are 0. -/
def decodeTableWord (nbits w : Nat) : Option Instr :=
  match decode (BitVec.ofNat 64 (w % 2 ^ nbits)) with
  | .ok i    => some i
  | .error _ => none

/-! ### The assembler's text form (R68, R69; log entry 17) -/

/-- The mnemonic of a request (R62). -/
def mnemonic : Instr → String
  | .rgb565 _ _          => "RGB565"
  | .dxt1 _ _            => "DXT1"
  | .dxt3 _ _            => "DXT3"
  | .dxt5 _ _            => "DXT5"
  | .bgr565 _ _          => "BGR565"
  | .bgrx5551 _ _        => "BGRX5551"
  | .bgra4444 _ _        => "BGRA4444"
  | .dxt1OneBitAlpha _ _ => "DXT1_ONEBITALPHA"
  | .bgra5551 _ _        => "BGRA5551"

/-- The nine requests for given `W` and `H`, in the order of the opcode table. -/
def requestsOf (w h : Nat) : List Instr :=
  [.rgb565 w h, .dxt1 w h, .dxt3 w h, .dxt5 w h, .bgr565 w h, .bgrx5551 w h, .bgra4444 w h, .dxt1OneBitAlpha w h,
    .bgra5551 w h]

/-- The request that a statement `DECODE <mnemonic>, <W>, <H>` names, `W` and `H` in 0..65535 (R68). -/
def requestOfMnemonic (name : String) (w h : Nat) : Option Instr :=
  (requestsOf w h).find? fun i => mnemonic i == name && i.wellFormed

/-- A statement assembles to the command word of the request it names (R68). -/
def assemble (name : String) (w h : Nat) : Option (BitVec 64) :=
  (requestOfMnemonic name w h).map encode

/-- A command word disassembles to a statement where it decodes, and to a raw word otherwise (R69). -/
def disassemble (cmd : BitVec 64) : Disassembly :=
  match decode cmd with
  | .ok i    => .statement i
  | .error _ => .rawCmd cmd

/-- The 16 hex digits of a command word, most significant first. -/
def hexDigits (cmd : BitVec 64) : List Char :=
  (List.range 16).map fun k => ("0123456789ABCDEF".toList).getD (cmd.extractLsb' (60 - 4 * k) 4).toNat '0'

/-- The text of a disassembly (R68, R69): `DECODE <mnemonic>, <W>, <H>` with decimal numbers, or `.cmd <hex>`. -/
def Disassembly.text : Disassembly → String
  | .statement i => "DECODE " ++ mnemonic i ++ ", " ++ toString i.width ++ ", " ++ toString i.height
  | .rawCmd cmd  => ".cmd 0x" ++ String.ofList (hexDigits cmd)

/-- The value of a digit character. -/
def digitValue (c : Char) : Option Nat :=
  if '0' ≤ c ∧ c ≤ '9' then some (c.toNat - '0'.toNat)
  else if 'a' ≤ c ∧ c ≤ 'f' then some (c.toNat - 'a'.toNat + 10)
  else if 'A' ≤ c ∧ c ≤ 'F' then some (c.toNat - 'A'.toNat + 10)
  else none

/-- The number that digits of a base spell, after a number already read; none at a character that is no digit of it. -/
def readDigits (base : Nat) : Nat → List Char → Option Nat
  | n, []      => some n
  | n, c :: cs =>
    match digitValue c with
    | none   => none
    | some d => if d < base then readDigits base (base * n + d) cs else none

/-- A decimal or `0x` hex number (R68). -/
def readNumber : List Char → Option Nat
  | []                    => none
  | ['0', 'x']            => none
  | '0' :: 'x' :: digits  => readDigits 16 0 digits
  | digits                => readDigits 10 0 digits

/-- The characters before the first comma, and those after the comma and one blank. -/
def splitComma : List Char → Option (List Char × List Char)
  | []               => none
  | ',' :: ' ' :: cs => some ([], cs)
  | c :: cs          => (splitComma cs).map fun p => (c :: p.1, p.2)

/-- A statement's operands `<mnemonic>, <W>, <H>` to its command word (R68). -/
def assembleOperands (cs : List Char) : Option (BitVec 64) :=
  match splitComma cs with
  | none => none
  | some (name, rest) =>
    match splitComma rest with
    | none => none
    | some (w, h) =>
      match readNumber w, readNumber h with
      | some w, some h => assemble (String.ofList name) w h
      | _, _           => none

/-- The text of a statement to its command word (R68); the raw form `.cmd <hex>` of R69 stands for its own word. -/
def assembleText (cs : List Char) : Option (BitVec 64) :=
  if "DECODE ".toList.isPrefixOf cs then assembleOperands (cs.drop 7)
  else if ".cmd 0x".toList.isPrefixOf cs then
    match readNumber (cs.drop 5) with
    | none   => none
    | some n => if n < 2 ^ 64 then some (BitVec.ofNat 64 n) else none
  else none

end Sys2Proof
end

