-- ==== Sys2Proof/Config.lean ====
section
/-! DEFINITION. The implementation parameters of the block (R5 to R9) and the free values: what the spec leaves
unspecified, as constants without a body. -/

namespace Sys2Proof

/-- `COLOR_INDEX_ORDER`, the bit order of the four 2-bit color indices in an index byte (R6). -/
inductive ColorIndexOrder where
  | lsbFirst
  | msbFirst
  deriving DecidableEq, Repr

/-- `DXT5_INDEX_LAYOUT`, how the 48-bit alpha-index field is assembled and read (R7, R139). -/
inductive Dxt5IndexLayout where
  | be48MsbFirst
  | le48MsbFirst
  | le48LsbFirst
  deriving DecidableEq, Repr

/-- `WRITE_ORDER`, which value a byte written more than once in one request ends with (R8, R45). -/
inductive WriteOrder where
  | unspecified
  | reference
  deriving DecidableEq, Repr

/-- The parameters of R5 to R9, fixed before the first request (R182). `lenBits = none` takes the window lengths as
unbounded naturals, as R9 allows; `some n` gives `LEN_BITS` the value `n`. -/
structure Config where
  dxt5Alpha7      : Option Byte
  colorIndexOrder : ColorIndexOrder
  dxt5IndexLayout : Dxt5IndexLayout
  writeOrder      : WriteOrder
  lenBits         : Option Nat
  deriving DecidableEq, Repr

/-- The defaults of R5 to R8; `LEN_BITS` is open (R9). -/
def Config.specDefault : Config where
  dxt5Alpha7      := none
  colorIndexOrder := .lsbFirst
  dxt5IndexLayout := .be48MsbFirst
  writeOrder      := .unspecified
  lenBits         := none

/-- FREE VALUE (log entry 9). Which of the values written to an offset it ends with under `WRITE_ORDER =
UNSPECIFIED`: a choice number for each draw and each offset, taken modulo the number of entries (R45). -/
opaque Config.chooseIndex : (draw offset : Nat) → Nat

/-- FREE VALUE (log entries 10, 12). A byte of `D` after a fault (R166) or an abandoned request (R180). -/
opaque Config.freeByte : (draw offset : Nat) → Byte

/-- FREE VALUE (log entries 11, 12). The scratch tables, mode bits and black alpha between blocks and after a reset
(R28 to R32). -/
opaque Config.freeDatapath : (draw : Nat) → Datapath

/-- FREE VALUE (log entry 12). `CMD` after a reset event (R32, R180). -/
opaque Config.freeCmd : (draw : Nat) → BitVec 64

/-- FREE VALUE (log entry 12). `SRC_LEN` after a reset event (R32, R180). -/
opaque Config.freeSrcLen : (draw : Nat) → Nat

/-- FREE VALUE (log entry 12). `DST_LEN` after a reset event (R32, R180). -/
opaque Config.freeDstLen : (draw : Nat) → Nat

end Sys2Proof
end

