-- ==== Sys2Proof/Machine/State.lean ====
section
/-! DEFINITION. The state of the block: every piece of state that R20 gives it, the request in progress, and the
model's own fields (the configuration, the host's next actions, the counter of free values). -/

namespace Sys2Proof.Machine

/-- The model never stops with a fault: a request that the block itself ends in `FAULT(cause)` is a next state with
`STATUS` written (R160, R166, R168; log entry 13). Hence no constructor; nothing raises it. Safe. -/
inductive Fault where
  deriving DecidableEq, Repr

/-- Why the model has no meaning for an instruction. -/
inductive Refusal where
  /-- Raised by `exec` for an instruction that has no meaning yet, by its mnemonic; every arm of `exec` has its
  meaning, so nothing raises it. Safe. -/
  | notModelled (mnemonic : String)
  deriving DecidableEq, Repr

/-- The fault causes of R164. -/
inductive FaultCause where
  | srcRange
  | dstRange
  | alpha7Unset
  deriving DecidableEq, Repr

/-- The outcome of a request (R160); these are outcomes of the hardware, recorded in `STATUS`. -/
inductive RequestOutcome where
  | done
  | fault   (cause : FaultCause)
  | refused (reason : RefuseReason)
  deriving DecidableEq, Repr

/-- A window's bytes: (offset, byte) pairs, offsets strictly rising, none equal to `unlistedByte`. -/
abbrev Memory := List Host.Cell

/-- A write list: the ordered entries (offset, byte) that a request emits (R44). -/
abbrev WriteList := List Host.Cell

/-- What the host does next (R183, R180). -/
inductive HostEvent where
  /-- Place source data in `S` (R183, step 2): the window holds these bytes and nothing else. -/
  | loadSource (cells : List Host.Cell)
  /-- Provide `D` (R183, step 3): the window holds these bytes and nothing else. -/
  | loadDest (cells : List Host.Cell)
  /-- Write `CMD`, `SRC_LEN`, `DST_LEN` and issue the request (R183, step 4). -/
  | request (cmd : BitVec 64) (srcLen dstLen : Nat)
  /-- Assert reset (R180). -/
  | reset
  deriving DecidableEq, Repr

/-- The machine's state. -/
structure State where
  /-- The source window `S` (R40). -/
  src        : Memory
  /-- The destination window `D` (R40). -/
  dst        : Memory
  /-- The command register `CMD` (R23, R61). -/
  cmd        : BitVec 64
  /-- The length register `SRC_LEN` (R23). -/
  srcLen     : Nat
  /-- The length register `DST_LEN` (R23). -/
  dstLen     : Nat
  /-- `STATUS`, read-only to the host (R24). -/
  status     : BitVec 16
  /-- `CT`, `AT`, `FOUR`, `A8MODE`, `BA` (R28 to R31). -/
  datapath   : Datapath
  /-- A request has been issued and has not ended (R23, R180). -/
  inProgress : Bool
  /-- The model's own: the configuration, which no step writes (R182; log entry 6). -/
  cfg        : Config
  /-- The model's own: what the host does next, in order (log entry 1). -/
  events     : List HostEvent
  /-- The model's own: how many free values have been drawn (log entry 8). -/
  draws      : Nat
  deriving DecidableEq, Repr

/-- What a byte of `S` or `D` that nothing has written reads as (log entry 5; for `D`, R46: the host supplies it
zero-initialized). -/
def unlistedByte : Byte := 0

/-- The scratch state right after reset: the spec leaves it unspecified (R32); the model names zero (log entry 4). -/
def Datapath.atReset : Datapath where
  ct     := ⟨⟨0, 0, 0, 0⟩, ⟨0, 0, 0, 0⟩, ⟨0, 0, 0, 0⟩, ⟨0, 0, 0, 0⟩⟩
  atab   := ⟨0, 0, 0, 0, 0, 0, 0, some 0⟩
  four   := false
  a8mode := false
  ba     := 0

/-- Right after reset: `STATUS = 0` and no request in progress (R23, R32, R180, R181); `CMD`, `SRC_LEN`, `DST_LEN`
and the scratch state hold the values that log entries 3 and 4 name; the windows list nothing. -/
def State.reset : State where
  src        := []
  dst        := []
  cmd        := 0
  srcLen     := 0
  dstLen     := 0
  status     := 0
  datapath   := Datapath.atReset
  inProgress := false
  cfg        := Config.specDefault
  events     := []
  draws      := 0

end Sys2Proof.Machine
end

