-- ==== Sys2Proof/Machine/Operands.lean ====
section
/-! DEFINITION. The primitives of 40_primitives.md, the image and block geometry, the range requirements, and the
index lookups: pure functions of their operands. -/

namespace Sys2Proof.Machine

/-! ### Primitives (R80 to R86) -/

/-- `UPS(n, v) = v | (v >> n)`, the Bit-Upsampler; `n` is the width of the left-justified field (R80). -/
def ups (n : Nat) (v : Byte) : Byte := v ||| (v >>> n)

/-- `NIBLO(v) = v[3:0] | (v[3:0] << 4)` (R82). -/
def nibLo (v : Byte) : Byte := (v &&& 0x0F) ||| ((v &&& 0x0F) <<< 4)

/-- `NIBHI(v) = (v & 0xF0) | ((v & 0xF0) >> 4)` (R83). -/
def nibHi (v : Byte) : Byte := (v &&& 0xF0) ||| ((v &&& 0xF0) >>> 4)

/-- The three outputs `(r, g, bl)` of the 565 unpacker, named after the bit fields (R85). -/
abbrev Unpacked565 := Byte × Byte × Byte

/-- `UNPACK565(a, b)` of the little-endian value `w = b ++ a`: `r5 = w[4:0]`, `g6 = w[10:5]`, `b5 = w[15:11]`, each
left-justified in a byte and upsampled (R47, R85). -/
def unpack565 (a b : Byte) : Unpacked565 :=
  let r5 : BitVec 5 := a.extractLsb' 0 5
  let g6 : BitVec 6 := b.extractLsb' 0 3 ++ a.extractLsb' 5 3
  let b5 : BitVec 5 := b.extractLsb' 3 5
  (ups 5 (r5.setWidth 8 <<< 3), ups 6 (g6.setWidth 8 <<< 2), ups 5 (b5.setWidth 8 <<< 3))

/-! ### Geometry (R13, R120 to R123) -/

/-- `ceil4(n) = (n + 3) div 4` (R13). -/
def ceil4 (n : Nat) : Nat := (n + 3) / 4

/-- The blocks `(bx, by)` of a DXT image in the reference order, `by` outer and `bx` inner (R120, R142). -/
def blockGrid (w h : Nat) : List (Nat × Nat) :=
  (List.range (ceil4 h)).flatMap fun bY => (List.range (ceil4 w)).map fun bX => (bX, bY)

/-- The block index `k = by·bw + bx` (R120). -/
def blockIndex (w bX bY : Nat) : Nat := bY * ceil4 w + bX

/-- The pixels `(x, y)` of a block in increasing number `p = 4·y + x` (R123, R142). -/
def blockPixels : List (Nat × Nat) :=
  (List.range 4).flatMap fun y => (List.range 4).map fun x => (x, y)

/-- `DOFF(bx, by, x, y)`, the destination offset of a block pixel; never clipped to the image (R121). -/
def doff (w bX bY x y : Nat) : Nat := 4 * (w * (4 * bY + y) + 4 * bX + x)

/-! ### Range requirements (R162, R163) -/

/-- `SrcReq` of the packed-16 formats. -/
def srcReqPacked (w h : Nat) : Nat := 2 * w * h

/-- `SrcReq` of the formats with 8-byte blocks. -/
def srcReqBlock8 (w h : Nat) : Nat := 8 * ceil4 w * ceil4 h

/-- `SrcReq` of the formats with 16-byte blocks. -/
def srcReqBlock16 (w h : Nat) : Nat := 16 * ceil4 w * ceil4 h

/-- `DstReq` of the packed-16 formats. -/
def dstReqPacked (w h : Nat) : Nat := 4 * w * h

/-- `DstReq` of the DXT formats. -/
def dstReqDxt (w h : Nat) : Nat :=
  if w = 0 ∨ h = 0 then 0 else 4 * (w * (4 * ceil4 h - 1) + 4 * ceil4 w)

/-! ### Index lookups (R128, R139) -/

/-- `CIDX(v, x)`, the 2-bit color index of column `x` in a row's index byte (R128). -/
def colorIndex (order : ColorIndexOrder) (v : Byte) (x : Nat) : BitVec 2 :=
  match order with
  | .lsbFirst => v.extractLsb' (2 * x) 2
  | .msbFirst => v.extractLsb' (6 - 2 * x) 2

/-- The 48-bit alpha-index field `V` of the block bytes 2 to 7 (R139). -/
def alphaField (layout : Dxt5IndexLayout) (s2 s3 s4 s5 s6 s7 : Byte) : BitVec 48 :=
  match layout with
  | .be48MsbFirst => s2 ++ (s3 ++ (s4 ++ (s5 ++ (s6 ++ s7))))
  | .le48MsbFirst => s7 ++ (s6 ++ (s5 ++ (s4 ++ (s3 ++ s2))))
  | .le48LsbFirst => s7 ++ (s6 ++ (s5 ++ (s4 ++ (s3 ++ s2))))

/-- `AIDX(p)`, the 3-bit alpha index of pixel `p` in the field `V` (R139). -/
def alphaIndex (layout : Dxt5IndexLayout) (v : BitVec 48) (p : Nat) : BitVec 3 :=
  match layout with
  | .be48MsbFirst => v.extractLsb' (45 - 3 * p) 3
  | .le48MsbFirst => v.extractLsb' (45 - 3 * p) 3
  | .le48LsbFirst => v.extractLsb' (3 * p) 3

/-- The color table entry that an index selects (R128). -/
def colorEntry (t : ColorTable) (i : BitVec 2) : Pixel :=
  match i.toNat with
  | 0 => t.c0
  | 1 => t.c1
  | 2 => t.c2
  | _ => t.c3

/-- The alpha table entry that an index selects; none where it is unset (R138, R140). -/
def alphaEntry (t : AlphaTable) (i : BitVec 3) : Option Byte :=
  match i.toNat with
  | 0 => some t.a0
  | 1 => some t.a1
  | 2 => some t.a2
  | 3 => some t.a3
  | 4 => some t.a4
  | 5 => some t.a5
  | 6 => some t.a6
  | _ => t.a7

/-! ### Interpolation (R126, R127, R136, R137) -/

/-- The floor blend `(wa·a + wb·b) div d` of two bytes, computed on unbounded naturals (R12); with `wa + wb = d` the
result is at most 255. -/
def blend (wa wb d : Nat) (a b : Byte) : Byte := BitVec.ofNat 8 ((wa * a.toNat + wb * b.toNat) / d)

/-- The blend of two table entries, channel by channel, with a given alpha (R126, R127). -/
def blendPixel (wa wb d : Nat) (p q : Pixel) (alpha : Byte) : Pixel :=
  ⟨blend wa wb d p.r q.r, blend wa wb d p.g q.g, blend wa wb d p.b q.b, alpha⟩

end Sys2Proof.Machine
end

