-- ==== Sys2Proof/Machine/Flags.lean ====
section
/-! DEFINITION. The fields of `STATUS` and the update at the end of a request (R24 to R26), and the two transient mode
bits of a block (R124, R135). -/

namespace Sys2Proof.Machine

/-! ### STATUS (R24) -/

/-- `STATUS.OUTCOME`, bits `[1:0]`. -/
def statusOutcome (v : BitVec 16) : BitVec 2 := v.extractLsb' 0 2

/-- `STATUS.FAULT_SEEN`, bit 2. -/
def statusFaultSeen (v : BitVec 16) : Bool := v.getLsbD 2

/-- The reserved bits `[7:3]`. -/
def statusReserved (v : BitVec 16) : BitVec 5 := v.extractLsb' 3 5

/-- `STATUS.CAUSE`, bits `[15:8]`. -/
def statusCause (v : BitVec 16) : BitVec 8 := v.extractLsb' 8 8

/-- A value of `STATUS` from its fields; the reserved bits are hard-wired to 0 (R24). -/
def mkStatus (cause : BitVec 8) (faultSeen : Bool) (outcome : BitVec 2) : BitVec 16 :=
  (cause.setWidth 16 <<< 8) ||| ((BitVec.ofBool faultSeen).setWidth 16 <<< 2) ||| outcome.setWidth 16

/-- The `OUTCOME` code (R24, R25). -/
def outcomeCode : RequestOutcome → BitVec 2
  | .done      => 1
  | .fault _   => 2
  | .refused _ => 3

/-- The `CAUSE` code (R161, R164); 0 for `DONE` (R25). -/
def causeCode : RequestOutcome → BitVec 8
  | .done                   => 0x00
  | .fault .srcRange        => 0x01
  | .fault .dstRange        => 0x02
  | .fault .alpha7Unset     => 0x03
  | .refused .badFormat     => 0x10
  | .refused .reservedBits  => 0x11

/-- Whether an outcome sets `FAULT_SEEN` (R24, R25). -/
def outcomeIsBad : RequestOutcome → Bool
  | .done      => false
  | .fault _   => true
  | .refused _ => true

/-- `STATUS` at the end of a request (R25): `OUTCOME` and `CAUSE` are written together, `FAULT_SEEN` is set by FAULT and
REFUSED and never cleared (R26). -/
def recordOutcome (o : RequestOutcome) (v : BitVec 16) : BitVec 16 :=
  mkStatus (causeCode o) (statusFaultSeen v || outcomeIsBad o) (outcomeCode o)

/-! ### The mode bits of a block -/

/-- `GT565(S, c)` on the bytes `S[c]`, `S[c+1]` of `c0` and `S[c+2]`, `S[c+3]` of `c1`: the OR of two unsigned byte
compares, not a 16-bit compare (R124, R144). -/
def gt565 (s0 s1 s2 s3 : Byte) : Bool := s2.ult s0 || s3.ult s1

/-- `A8MODE`, `a0 >= a1` unsigned (R135). -/
def alpha8Mode (a0 a1 : Byte) : Bool := a1.ule a0

end Sys2Proof.Machine
end

