-- ==== Sys2Proof/Machine/Ops.lean ====
section
/-! DEFINITION. The named operations over the windows and the registers: byte reads and writes, the write list and its
commit, the end of a request (the block's only exception mechanism), the frame of every request, and reset. -/

namespace Sys2Proof.Machine

/-! ### Windows as canonical lists -/

/-- The byte at an offset. -/
def Memory.read : Memory → Nat → Byte
  | [], _ => unlistedByte
  | (b, v) :: m, a => if a = b then v else Memory.read m a

/-- Write one byte, keeping the canonical form. -/
def Memory.write : Memory → Nat → Byte → Memory
  | [], a, v => if v = unlistedByte then [] else [(a, v)]
  | (b, u) :: m, a, v =>
    if a < b then (if v = unlistedByte then (b, u) :: m else (a, v) :: (b, u) :: m)
    else if a = b then (if v = unlistedByte then m else (a, v) :: m)
    else (b, u) :: Memory.write m a v

/-- `MemWrite` of a value where there is one. -/
def Memory.put (m : Memory) (a : Nat) : Option Byte → Memory
  | none   => m
  | some v => m.write a v

/-- The canonical form: offsets strictly rising, no entry equal to what an unlisted offset reads as. -/
def Memory.wf : Memory → Bool
  | [] => true
  | (a, v) :: m => decide (v ≠ unlistedByte) && m.all (fun c => decide (a < c.1)) && Memory.wf m

/-- The window that holds the given bytes and nothing else; of two entries at one offset the later wins. -/
def Memory.ofCells (cells : List Host.Cell) : Memory :=
  cells.foldl (fun m c => m.write c.1 c.2) []

/-! ### Reads of the source window -/

/-- `S[o]`, which is `MemRead(S, o, 1)`: defined only below `SRC_LEN`; a read at or beyond it raises `SRC_RANGE` (R14,
R43). -/
def State.memRead (s : State) (o : Nat) : Except FaultCause Byte :=
  if o < s.srcLen then .ok (s.src.read o) else .error .srcRange

/-- The `n` bytes `S[o .. o+n-1]`, read one by one (R50, R122). -/
def State.memReads (s : State) (o : Nat) : Nat → Except FaultCause (List Byte)
  | 0     => .ok []
  | n + 1 =>
    match s.memRead o, State.memReads s (o + 1) n with
    | .ok v, .ok vs   => .ok (v :: vs)
    | .error c, _     => .error c
    | .ok _, .error c => .error c

/-! ### Write lists (R14, R44) -/

/-- `emit(o, v)` (R14). -/
def emit (o : Nat) (v : Byte) : WriteList := [(o, v)]

/-- `emit4(o, (r, g, b, a))` (R14). -/
def emit4 (o : Nat) (p : Pixel) : WriteList := [(o, p.r), (o + 1, p.g), (o + 2, p.b), (o + 3, p.a)]

/-- `emit` of the R, G and B bytes of a pixel alone (R131). -/
def emit3 (o : Nat) (p : Pixel) : WriteList := [(o, p.r), (o + 1, p.g), (o + 2, p.b)]

/-- Run a loop body over its iteration values in order: the scratch state is threaded through, the write lists are
appended, and the first fault ends the loop (R44, R142). -/
def runLoop {α : Type} (body : α → Datapath → Except FaultCause (Datapath × WriteList)) :
    List α → Datapath → Except FaultCause (Datapath × WriteList)
  | [], d => .ok (d, [])
  | x :: xs, d =>
    match body x d with
    | .error c => .error c
    | .ok (d', wl) =>
      match runLoop body xs d' with
      | .error c => .error c
      | .ok (d'', wl') => .ok (d'', wl ++ wl')

/-- The values that a write list holds at an offset, in reference order: `V(o)` is the set of them (R45). -/
def valuesAt (wl : WriteList) (o : Nat) : List Byte :=
  wl.filterMap fun c => if c.1 = o then some c.2 else none

/-- The value an offset ends with (R45): the only one where there is one; under `REFERENCE` the last in reference
order; under `UNSPECIFIED` any of them, by a free choice for each offset (log entry 9). -/
def chosenValue (order : WriteOrder) (draw o : Nat) : List Byte → Option Byte
  | [] => none
  | [v] => some v
  | v :: vs =>
    match order with
    | .reference   => some (vs.getLastD v)
    | .unspecified => some ((v :: vs).getD (Config.chooseIndex draw o % (vs.length + 1)) v)

/-- The commit of a write list to a window (R45): every offset that occurs in it gets its chosen value, every other
byte keeps its value (R46). -/
def commit (order : WriteOrder) (draw : Nat) (wl : WriteList) (m : Memory) : Memory :=
  wl.foldl (fun m c => m.put c.1 (chosenValue order draw c.1 (valuesAt wl c.1))) m

/-! ### The end of a request -/

/-- The end of a request with an outcome: `STATUS` is written (R25), no control is transferred and no other register
changes (R160, R167); the scratch state is unspecified from here (R28 to R32; log entry 11). -/
def State.endRequest (o : RequestOutcome) (s : State) : State :=
  { s with
    status     := recordOutcome o s.status
    datapath   := Config.freeDatapath s.draws
    inProgress := false
    draws      := s.draws + 1 }

/-- Every byte of `D` below `DST_LEN` takes an unspecified value (R166, R180; log entries 10, 12). -/
def State.scrambleDst (s : State) : State :=
  { s with dst := (List.range s.dstLen).foldl (fun m o => m.write o (Config.freeByte s.draws o)) s.dst }

/-- A request ends in `FAULT(cause)`: `D` is unspecified, `S` is unchanged, `STATUS` is written (R160, R166). -/
def State.endFault (c : FaultCause) (s : State) : State := s.scrambleDst.endRequest (.fault c)

/-- A request ends `REFUSED(reason)`: nothing is read or written but `STATUS` (R160, R161). -/
def State.endRefused (r : RefuseReason) (s : State) : State := s.endRequest (.refused r)

/-- A request ends `DONE`: the write list is committed, then `STATUS` is written (R45, R56, R160). -/
def State.endDone (wl : WriteList) (s : State) : State :=
  { s with dst := commit s.cfg.writeOrder s.draws wl s.dst }.endRequest .done

/-- The frame of every request (R66): the range checks in the order of R165, then the operation's write list, which may
itself end the request in a fault, then the commit. An entry at or beyond `DST_LEN` would fault `DST_RANGE` (R45; log
entry 16). -/
def State.runRequest (srcReq dstReq : Nat) (writes : State → Except FaultCause (Datapath × WriteList)) (s : State) :
    Host.Outcome State Fault Refusal :=
  if s.srcLen < srcReq then .next (s.endFault .srcRange)
  else if s.dstLen < dstReq then .next (s.endFault .dstRange)
  else
    match writes s with
    | .error c => .next (s.endFault c)
    | .ok (d, wl) =>
      if wl.any (fun c => decide (s.dstLen ≤ c.1)) then .next (s.endFault .dstRange)
      else .next ({ s with datapath := d }.endDone wl)

/-! ### Reset and the host's registers -/

/-- A window length as the length registers hold it: an unsigned value of `LEN_BITS` bits, or unbounded (R9, R65;
log entry 7). -/
def truncLen (c : Config) (n : Nat) : Nat :=
  match c.lenBits with
  | none   => n
  | some k => n % 2 ^ k

/-- Reset (R180): `STATUS = 0`, `S` and `D` untouched, the request registers and the scratch state unspecified; a request
in progress is abandoned, its outcome never reported and `D` unspecified (log entry 12). -/
def State.applyReset (s : State) : State :=
  let t := if s.inProgress then s.scrambleDst else s
  { t with
    status     := 0
    cmd        := Config.freeCmd s.draws
    srcLen     := truncLen s.cfg (Config.freeSrcLen s.draws)
    dstLen     := truncLen s.cfg (Config.freeDstLen s.draws)
    datapath   := Config.freeDatapath s.draws
    inProgress := false
    draws      := s.draws + 1 }

/-- The value the host reads from `STATUS`: the reserved bits read as 0 (R24). -/
def State.readStatus (s : State) : BitVec 16 := s.status &&& 0xFF07

/-- The host's read of a byte of `D`: defined only below `DST_LEN` (R40). -/
def State.readDest (s : State) (o : Nat) : Option Byte := if o < s.dstLen then some (s.dst.read o) else none

end Sys2Proof.Machine
end

