-- ==== Sys2Proof/Machine/BlockDxt.lean ====
section
/-! DEFINITION. The block-decompression engine (42_block_dxt.md): color table, alpha table, index lookups, the stages of a
block and the four requests. A block's bytes are a list of 8 or 16 bytes; a color sub-block starts at byte `c` of it. -/

namespace Sys2Proof.Machine

/-- Byte `i` of a block. -/
def blockByte (blk : List Byte) (i : Nat) : Byte := blk.getD i 0

/-! ### Color table builder (R124 to R127) -/

/-- An endpoint entry (R125): the unpacker's first and third outputs are exchanged, alpha 255. -/
def endpointPixel (a b : Byte) : Pixel :=
  match unpack565 a b with
  | (r, g, bl) => ⟨bl, g, r, 255⟩

/-- `FOUR <- GT565` of the color sub-block at byte `c` (R124). -/
def setFour (blk : List Byte) (c : Nat) (d : Datapath) : Datapath :=
  { d with
    four := gt565 (blockByte blk c) (blockByte blk (c + 1)) (blockByte blk (c + 2)) (blockByte blk (c + 3)) }

/-- Build `CT[0]` and `CT[1]` from the reference colors at byte `c` (R125). -/
def buildEndpoints (blk : List Byte) (c : Nat) (d : Datapath) : Datapath :=
  { d with
    ct := { d.ct with
      c0 := endpointPixel (blockByte blk c) (blockByte blk (c + 1))
      c1 := endpointPixel (blockByte blk (c + 2)) (blockByte blk (c + 3)) } }

/-- Build `CT[2]` and `CT[3]` of the four-color table, entry 3 with alpha `ba` (R126). -/
def buildFourColor (ba : Byte) (d : Datapath) : Datapath :=
  { d with
    ct := { d.ct with
      c2 := blendPixel 2 1 3 d.ct.c0 d.ct.c1 255
      c3 := blendPixel 1 2 3 d.ct.c0 d.ct.c1 ba } }

/-- Build `CT[2]` and `CT[3]` of the three-color table, entry 3 black with alpha `ba` (R127). -/
def buildThreeColor (ba : Byte) (d : Datapath) : Datapath :=
  { d with
    ct := { d.ct with
      c2 := blendPixel 1 1 2 d.ct.c0 d.ct.c1 255
      c3 := ⟨0, 0, 0, ba⟩ } }

/-- The table of a DXT1 block (R129): `FOUR` selects the form, `BA` is the request's black alpha. -/
def buildDxt1 (blk : List Byte) (d : Datapath) : Datapath :=
  let d := buildEndpoints blk 0 (setFour blk 0 d)
  if d.four then buildFourColor d.ba d else buildThreeColor d.ba d

/-- The table of a DXT3 or DXT5 block (R131): always four colors, alpha 255, `FOUR` not evaluated. -/
def buildColorStage (blk : List Byte) (d : Datapath) : Datapath :=
  buildFourColor 255 (buildEndpoints blk 8 d)

/-! ### Alpha table builder (R135 to R138) -/

/-- Entry `i` of the eight-value table, `((8 - i)·a0 + (i - 1)·a1) div 7` (R136). -/
def alphaStep7 (i : Nat) (a0 a1 : Byte) : Byte := blend (8 - i) (i - 1) 7 a0 a1

/-- Entry `i` of the six-value table, `((6 - i)·a0 + (i - 1)·a1) div 5` (R137). -/
def alphaStep5 (i : Nat) (a0 a1 : Byte) : Byte := blend (6 - i) (i - 1) 5 a0 a1

/-- The eight-value table (R135, R136). -/
def alphaTable8 (a0 a1 : Byte) : AlphaTable where
  a0 := a0
  a1 := a1
  a2 := alphaStep7 2 a0 a1
  a3 := alphaStep7 3 a0 a1
  a4 := alphaStep7 4 a0 a1
  a5 := alphaStep7 5 a0 a1
  a6 := alphaStep7 6 a0 a1
  a7 := some (alphaStep7 7 a0 a1)

/-- The six-value table (R135, R137): entry 6 is 0, entry 7 is `DXT5_ALPHA7`, unset when that is none (R138). -/
def alphaTable6 (alpha7 : Option Byte) (a0 a1 : Byte) : AlphaTable where
  a0 := a0
  a1 := a1
  a2 := alphaStep5 2 a0 a1
  a3 := alphaStep5 3 a0 a1
  a4 := alphaStep5 4 a0 a1
  a5 := alphaStep5 5 a0 a1
  a6 := 0
  a7 := alpha7

/-- `A8MODE` and `AT` of a DXT5 block (R134 to R138): the endpoints are block bytes 0 and 1. -/
def buildAlpha (alpha7 : Option Byte) (blk : List Byte) (d : Datapath) : Datapath :=
  let a0 := blockByte blk 0
  let a1 := blockByte blk 1
  let d := { d with a8mode := alpha8Mode a0 a1 }
  { d with atab := if d.a8mode then alphaTable8 a0 a1 else alphaTable6 alpha7 a0 a1 }

/-! ### Per-pixel lookups -/

/-- The color of pixel `(x, y)`: the index byte of row `y` of the sub-block at `c` selects an entry of `CT` (R128). -/
def lookupColor (order : ColorIndexOrder) (blk : List Byte) (c : Nat) (d : Datapath) (x y : Nat) : Pixel :=
  colorEntry d.ct (colorIndex order (blockByte blk (c + 4 + y)) x)

/-- The explicit alpha of pixel `(x, y)` of a DXT3 block: two pixels a byte, low nibble first (R132). -/
def explicitAlpha (blk : List Byte) (x y : Nat) : Byte :=
  let p := 4 * y + x
  let v := blockByte blk (p / 2)
  if p % 2 = 0 then nibLo v else nibHi v

/-- The alpha of pixel `(x, y)` of a DXT5 block from `AT`; none where the entry is unset (R139, R140). -/
def lookupAlpha (layout : Dxt5IndexLayout) (blk : List Byte) (d : Datapath) (x y : Nat) : Option Byte :=
  let v := alphaField layout (blockByte blk 2) (blockByte blk 3) (blockByte blk 4) (blockByte blk 5) (blockByte blk 6)
    (blockByte blk 7)
  alphaEntry d.atab (alphaIndex layout v (4 * y + x))

/-! ### Stages of a block -/

/-- The 16 `emit4` of a DXT1 block, alpha included (R129, R142). -/
def emitDxt1 (order : ColorIndexOrder) (w bX bY : Nat) (blk : List Byte) (d : Datapath) : WriteList :=
  blockPixels.flatMap fun q => emit4 (doff w bX bY q.1 q.2) (lookupColor order blk 0 d q.1 q.2)

/-- The 48 emits of the color stage of DXT3 and DXT5: R, G and B alone (R131, R142). -/
def emitColorStage (order : ColorIndexOrder) (w bX bY : Nat) (blk : List Byte) (d : Datapath) : WriteList :=
  blockPixels.flatMap fun q => emit3 (doff w bX bY q.1 q.2) (lookupColor order blk 8 d q.1 q.2)

/-- The 16 emits of the DXT3 alpha stage (R132). -/
def emitAlphaStage3 (w bX bY : Nat) (blk : List Byte) : WriteList :=
  blockPixels.flatMap fun q => emit (doff w bX bY q.1 q.2 + 3) (explicitAlpha blk q.1 q.2)

/-- The 16 emits of the DXT5 alpha stage; a pixel that selects the unset entry raises `ALPHA7_UNSET` (R138, R140). -/
def emitAlphaStage5 (layout : Dxt5IndexLayout) (w bX bY : Nat) (blk : List Byte) (d : Datapath) :
    List (Nat × Nat) → Except FaultCause WriteList
  | [] => .ok []
  | q :: qs =>
    match lookupAlpha layout blk d q.1 q.2, emitAlphaStage5 layout w bX bY blk d qs with
    | none, _          => .error .alpha7Unset
    | some _, .error c => .error c
    | some v, .ok wl   => .ok (emit (doff w bX bY q.1 q.2 + 3) v ++ wl)

/-! ### One block of each format -/

/-- A DXT1 block (R122, R129). -/
def blockDxt1 (w : Nat) (s : State) (q : Nat × Nat) (d : Datapath) : Except FaultCause (Datapath × WriteList) :=
  match s.memReads (8 * blockIndex w q.1 q.2) 8 with
  | .error c => .error c
  | .ok blk  =>
    let d := buildDxt1 blk d
    .ok (d, emitDxt1 s.cfg.colorIndexOrder w q.1 q.2 blk d)

/-- A DXT3 block: color stage, then alpha stage (R122, R133). -/
def blockDxt3 (w : Nat) (s : State) (q : Nat × Nat) (d : Datapath) : Except FaultCause (Datapath × WriteList) :=
  match s.memReads (16 * blockIndex w q.1 q.2) 16 with
  | .error c => .error c
  | .ok blk  =>
    let d := buildColorStage blk d
    .ok (d, emitColorStage s.cfg.colorIndexOrder w q.1 q.2 blk d ++ emitAlphaStage3 w q.1 q.2 blk)

/-- A DXT5 block: color stage, then alpha stage (R122, R141). -/
def blockDxt5 (w : Nat) (s : State) (q : Nat × Nat) (d : Datapath) : Except FaultCause (Datapath × WriteList) :=
  match s.memReads (16 * blockIndex w q.1 q.2) 16 with
  | .error c => .error c
  | .ok blk  =>
    let d := buildAlpha s.cfg.dxt5Alpha7 blk (buildColorStage blk d)
    match emitAlphaStage5 s.cfg.dxt5IndexLayout w q.1 q.2 blk d blockPixels with
    | .error c => .error c
    | .ok wl   => .ok (d, emitColorStage s.cfg.colorIndexOrder w q.1 q.2 blk d ++ wl)

/-! ### Write lists -/

/-- `WriteList_DXT1(BA, W, H, S)` (R129, R130): `BA` is latched for the request (R31, R67). -/
def writeListDxt1 (ba : Byte) (w h : Nat) (s : State) : Except FaultCause (Datapath × WriteList) :=
  runLoop (blockDxt1 w s) (blockGrid w h) { s.datapath with ba := ba }

/-- `WriteList_DXT3(W, H, S)` (R133). -/
def writeListDxt3 (w h : Nat) (s : State) : Except FaultCause (Datapath × WriteList) :=
  runLoop (blockDxt3 w s) (blockGrid w h) s.datapath

/-- `WriteList_DXT5(W, H, S)` (R141). -/
def writeListDxt5 (w h : Nat) (s : State) : Except FaultCause (Datapath × WriteList) :=
  runLoop (blockDxt5 w s) (blockGrid w h) s.datapath

/-! ### The requests -/

/-- `DXT1`: black alpha 255 (R67, R129). -/
def execDxt1 (w h : Nat) (s : State) : Host.Outcome State Fault Refusal :=
  s.runRequest (srcReqBlock8 w h) (dstReqDxt w h) (writeListDxt1 255 w h)

/-- `DXT1_ONEBITALPHA`: black alpha 0 (R67, R130). -/
def execDxt1OneBitAlpha (w h : Nat) (s : State) : Host.Outcome State Fault Refusal :=
  s.runRequest (srcReqBlock8 w h) (dstReqDxt w h) (writeListDxt1 0 w h)

/-- `DXT3` (R133). -/
def execDxt3 (w h : Nat) (s : State) : Host.Outcome State Fault Refusal :=
  s.runRequest (srcReqBlock16 w h) (dstReqDxt w h) (writeListDxt3 w h)

/-- `DXT5` (R141). -/
def execDxt5 (w h : Nat) (s : State) : Host.Outcome State Fault Refusal :=
  s.runRequest (srcReqBlock16 w h) (dstReqDxt w h) (writeListDxt5 w h)

end Sys2Proof.Machine
end

