-- ==== Sys2Proof/Machine/Packed16.lean ====
section
/-! DEFINITION. The packed-16 formats 5-6-5, 4-4-4-4 and 5-5-5-1 (41_packed16.md): pixel functions, the common pixel loop
and the five requests. -/

namespace Sys2Proof.Machine

/-! ### Pixel functions -/

/-- `P_RGB565` (R102): the unpacker's outputs in the order it names them, alpha 255. -/
def pixelRgb565 (a b : Byte) : Pixel :=
  match unpack565 a b with
  | (r, g, bl) => ⟨r, g, bl, 255⟩

/-- `P_BGR565` (R103): the unpacker's first and third outputs exchanged, alpha 255. -/
def pixelBgr565 (a b : Byte) : Pixel :=
  match unpack565 a b with
  | (r, g, bl) => ⟨bl, g, r, 255⟩

/-- `P_BGRA4444` (R104): B = `w[3:0]`, G = `w[7:4]`, R = `w[11:8]`, A = `w[15:12]`, each nibble duplicated. -/
def pixelBgra4444 (a b : Byte) : Pixel := ⟨nibLo b, nibHi a, nibLo a, nibHi b⟩

/-- `P_BGRA5551` (R105): B = `w[4:0]`, G = `w[9:5]`, R = `w[14:10]`, each upsampled; A from `w[15]`. -/
def pixelBgra5551 (a b : Byte) : Pixel where
  r := ups 5 ((b &&& 0x7C) <<< 1)
  g := ups 5 (((b &&& 0x03) <<< 6) ||| ((a &&& 0xE0) >>> 2))
  b := ups 5 ((a &&& 0x1F) <<< 3)
  a := if b.getLsbD 7 then 255 else 0

/-- `P_BGRX5551` (R106): as `P_BGRA5551` with `w[15]` ignored and alpha 255. -/
def pixelBgrx5551 (a b : Byte) : Pixel := { pixelBgra5551 a b with a := 255 }

/-! ### The common pixel loop (R100) -/

/-- One iteration: pixel `i` is read at offset `2·i` and emitted at offset `4·i`; no scratch state is used. -/
def packedPixel (P : Byte → Byte → Pixel) (s : State) (i : Nat) (d : Datapath) :
    Except FaultCause (Datapath × WriteList) :=
  match s.memRead (2 * i), s.memRead (2 * i + 1) with
  | .ok a, .ok b    => .ok (d, emit4 (4 * i) (P a b))
  | .error c, _     => .error c
  | .ok _, .error c => .error c

/-- `WriteList_packed(P, W, H, S)` (R100). -/
def writeListPacked (P : Byte → Byte → Pixel) (w h : Nat) (s : State) : Except FaultCause (Datapath × WriteList) :=
  runLoop (packedPixel P s) (List.range (w * h)) s.datapath

/-- A packed-16 request with pixel function `P` (R66, R100). -/
def runPacked (P : Byte → Byte → Pixel) (w h : Nat) (s : State) : Host.Outcome State Fault Refusal :=
  s.runRequest (srcReqPacked w h) (dstReqPacked w h) (writeListPacked P w h)

/-! ### The requests -/

/-- `RGB565` (R102). -/
def execRgb565 (w h : Nat) (s : State) : Host.Outcome State Fault Refusal := runPacked pixelRgb565 w h s

/-- `BGR565` (R103). -/
def execBgr565 (w h : Nat) (s : State) : Host.Outcome State Fault Refusal := runPacked pixelBgr565 w h s

/-- `BGRA4444` (R104). -/
def execBgra4444 (w h : Nat) (s : State) : Host.Outcome State Fault Refusal := runPacked pixelBgra4444 w h s

/-- `BGRA5551` (R105). -/
def execBgra5551 (w h : Nat) (s : State) : Host.Outcome State Fault Refusal := runPacked pixelBgra5551 w h s

/-- `BGRX5551` (R106). -/
def execBgrx5551 (w h : Nat) (s : State) : Host.Outcome State Fault Refusal := runPacked pixelBgrx5551 w h s

end Sys2Proof.Machine
end

