-- ==== Sys2Proof/Machine/Dispatch.lean ====
section
/-! DEFINITION. One arm for each request: the operation that its format code selects (R62, R66). -/

namespace Sys2Proof.Machine

def exec (i : Instr) (s : State) : Host.Outcome State Fault Refusal :=
  match i with
  | .rgb565 w h => Sys2Proof.Machine.execRgb565 w h s
  | .dxt1 w h => Sys2Proof.Machine.execDxt1 w h s
  | .dxt3 w h => Sys2Proof.Machine.execDxt3 w h s
  | .dxt5 w h => Sys2Proof.Machine.execDxt5 w h s
  | .bgr565 w h => Sys2Proof.Machine.execBgr565 w h s
  | .bgrx5551 w h => Sys2Proof.Machine.execBgrx5551 w h s
  | .bgra4444 w h => Sys2Proof.Machine.execBgra4444 w h s
  | .dxt1OneBitAlpha w h => Sys2Proof.Machine.execDxt1OneBitAlpha w h s
  | .bgra5551 w h => Sys2Proof.Machine.execBgra5551 w h s

end Sys2Proof.Machine
end

