-- ==== Sys2Proof/Machine/Request.lean ====
section
/-! DEFINITION. The execution of the request in the request registers, and what the host does between requests. -/

namespace Sys2Proof.Machine

/-- Execute the request whose command word is `CMD` (R66): a word that names no operation ends REFUSED (R63, R64, R161),
every other one runs its operation. -/
def State.execute (s : State) : Host.Outcome State Fault Refusal :=
  match decode s.cmd with
  | .error r => .next (s.endRefused r)
  | .ok i    => exec i s

/-- The effect of one host event (R23, R180, R183). -/
def State.takeEvent (e : HostEvent) (s : State) : State :=
  match e with
  | .loadSource cells => { s with src := Memory.ofCells cells }
  | .loadDest cells => { s with dst := Memory.ofCells cells }
  | .request cmd srcLen dstLen =>
    { s with cmd := cmd, srcLen := truncLen s.cfg srcLen, dstLen := truncLen s.cfg dstLen, inProgress := true }
  | .reset => s.applyReset

/-- Whether an event is the assertion of reset. -/
def HostEvent.isReset : HostEvent → Bool
  | .reset => true
  | _      => false

/-- Whether the host's next event is reset: the only one that may land on a request in progress (R169, R180; log entries
12 and 15). -/
def State.resetNext (s : State) : Bool :=
  match s.events with
  | []     => false
  | e :: _ => e.isReset

/-- The host's next event happens; with none, the block waits (R181). -/
def State.hostTurn (s : State) : State :=
  match s.events with
  | []      => s
  | e :: es => ({ s with events := es }).takeEvent e

end Sys2Proof.Machine
end

