-- ==== Sys2Proof/Machine/Step.lean ====
section
/-! DEFINITION. One step of the machine. -/

namespace Sys2Proof.Machine

/-- One step: a request in progress is executed as a whole (R22, R66), unless the host asserts reset first (R180);
otherwise the host acts, or the block waits (R181). -/
def step (s : State) : Host.Outcome State Fault Refusal :=
  if s.inProgress && !s.resetNext then s.execute else .next s.hostTurn

/-- `s` with the command word `w` written to `CMD` and the request issued, so that the next step runs it: a reset that
the host was about to assert is taken away; nothing else changes (log entry 2). -/
def State.withFetchWord (s : State) (nbits w : Nat) : State :=
  { s with
    cmd        := BitVec.ofNat 64 (w % 2 ^ nbits)
    inProgress := true
    events     := s.events.dropWhile HostEvent.isReset }

end Sys2Proof.Machine
end

