-- ==== Sys2Proof/Safety.lean ====
section
/-! DEFINITION. The invariant of the machine and what counts as a safe run, in the terms claims use. -/

namespace Sys2Proof.Machine

/-- The values `STATUS` can hold (R24, R25, R26, R161, R164): IDLE; DONE without and with `FAULT_SEEN`; the three
faults; the two refusals. The reserved bits are 0 in each. -/
def statusLegal (v : BitVec 16) : Bool :=
  [0x0000, 0x0001, 0x0005, 0x0106, 0x0206, 0x0306, 0x1007, 0x1107].contains v

/-- A length fits in `LEN_BITS` bits, where `LEN_BITS` has a value (R9, R65). -/
def lengthFits (c : Config) (n : Nat) : Bool :=
  match c.lenBits with
  | none   => true
  | some k => decide (n < 2 ^ k)

/-- The invariant: both windows are in canonical form, `STATUS` holds a legal value, the length registers fit. -/
abbrev State.Inv (s : State) : Prop :=
  s.src.wf = true ∧ s.dst.wf = true ∧ statusLegal s.status = true ∧ lengthFits s.cfg s.srcLen = true ∧
    lengthFits s.cfg s.dstLen = true

/-- No fault or refusal has been recorded since reset: the premise of a claim over a sequence of requests (R26). -/
def State.noFaultRecorded (s : State) : Bool := !statusFaultSeen s.status

/-- The last request ended DONE, so that claims about `D` may be made (R166). -/
def State.lastDone (s : State) : Bool := statusOutcome s.status == 1

/-- Byte `ch` of a destination pixel: R, G, B, A at consecutive offsets (R13, R49). -/
def pixelByte (p : Pixel) (ch : Nat) : Byte :=
  match ch with
  | 0 => p.r
  | 1 => p.g
  | 2 => p.b
  | _ => p.a

end Sys2Proof.Machine
end

