-- ==== Sys2Proof/Certificates/Slice0/Obligations.lean ====
section
/-! DEFINITION. The statements for the provers. The terms of `Claims` restate the spec's pixel arithmetic on natural
numbers, apart from the model's own functions, so that a statement compares the two. -/

namespace Sys2Proof.Claims

open Sys2Proof.Machine

/-! ### The spec's arithmetic on natural numbers -/

/-- `v[lo+n-1 : lo]` (R11). -/
def bits (v lo n : Nat) : Nat := v / 2 ^ lo % 2 ^ n

/-- The little-endian value `w = b ++ a` (R47). -/
def le16 (a b : Byte) : Nat := a.toNat + 256 * b.toNat

/-- A 5-bit field upsampled to 8 bits, in closed form (R81, R86). -/
def up5 (f : Nat) : Nat := 8 * f + f / 4

/-- A 6-bit field upsampled to 8 bits, in closed form (R81, R86). -/
def up6 (f : Nat) : Nat := 4 * f + f / 16

/-- `ceil4` (R13). -/
def ceilDiv4 (n : Nat) : Nat := (n + 3) / 4

/-- `SrcReq(f, W, H)` of R162, by format code. -/
def srcReqOf (f w h : Nat) : Nat :=
  if f ∈ [0x04, 0x11, 0x12, 0x13, 0x15] then 2 * w * h
  else if f ∈ [0x0D, 0x14] then 8 * ceilDiv4 w * ceilDiv4 h
  else 16 * ceilDiv4 w * ceilDiv4 h

/-- `DstReq(f, W, H)` of R163, by format code. -/
def dstReqOf (f w h : Nat) : Nat :=
  if w = 0 ∨ h = 0 then 0
  else if f ∈ [0x04, 0x11, 0x12, 0x13, 0x15] then 4 * w * h
  else 4 * (w * (4 * ceilDiv4 h - 1) + 4 * ceilDiv4 w)

/-- The nine format codes of R62. -/
def fmtCodes : List Nat := [0x04, 0x0D, 0x0E, 0x0F, 0x11, 0x12, 0x13, 0x14, 0x15]

/-- The format code of a request, from the table of R62. -/
def fmtOf : Instr → Nat
  | .rgb565 _ _          => 0x04
  | .dxt1 _ _            => 0x0D
  | .dxt3 _ _            => 0x0E
  | .dxt5 _ _            => 0x0F
  | .bgr565 _ _          => 0x11
  | .bgrx5551 _ _        => 0x12
  | .bgra4444 _ _        => 0x13
  | .dxt1OneBitAlpha _ _ => 0x14
  | .bgra5551 _ _        => 0x15

/-- What a request needs of `S` (R162). -/
def srcNeed (i : Instr) : Nat := srcReqOf (fmtOf i) i.width i.height

/-- What a request needs of `D` (R163). -/
def dstNeed (i : Instr) : Nat := dstReqOf (fmtOf i) i.width i.height

/-- A byte of the source window as a number. -/
def srcAt (s : State) (o : Nat) : Nat := (s.src.read o).toNat

/-- The channels R, G, B of a DXT endpoint color: red is the high field (R125). -/
def endpointChannel (v ch : Nat) : Nat :=
  match ch with
  | 0 => up5 (bits v 11 5)
  | 1 => up6 (bits v 5 6)
  | _ => up5 (bits v 0 5)

/-- Channel `ch` of entry `idx` of a color table with reference values `w0`, `w1` (R125 to R127). -/
def tableChannel (four : Bool) (w0 w1 ch idx : Nat) : Nat :=
  let c0 := endpointChannel w0 ch
  let c1 := endpointChannel w1 ch
  match idx with
  | 0 => c0
  | 1 => c1
  | 2 => if four then (2 * c0 + c1) / 3 else (c0 + c1) / 2
  | _ => if four then (c0 + 2 * c1) / 3 else 0

/-- The color index of column `x` in an index byte (R128). -/
def colorIdx (order : ColorIndexOrder) (v x : Nat) : Nat :=
  match order with
  | .lsbFirst => bits v (2 * x) 2
  | .msbFirst => bits v (6 - 2 * x) 2

/-- Byte `ch` of pixel `(x, y)` of block `(bX, bY)` of a DXT1 image with black alpha `ba` (R122 to R130). -/
def dxt1Byte (ba : Nat) (s : State) (w bX bY x y ch : Nat) : Nat :=
  let o := 8 * (bY * ceilDiv4 w + bX)
  let four := decide (srcAt s o > srcAt s (o + 2) ∨ srcAt s (o + 1) > srcAt s (o + 3))
  let idx := colorIdx s.cfg.colorIndexOrder (srcAt s (o + 4 + y)) x
  if ch = 3 then (if idx = 3 then ba else 255)
  else tableChannel four (srcAt s o + 256 * srcAt s (o + 1)) (srcAt s (o + 2) + 256 * srcAt s (o + 3)) ch idx

/-- Byte `ch`, one of R, G, B, of a pixel of a DXT3 or DXT5 image: the color sub-block is bytes 8 to 15 and the table
is always the four-color table (R131). -/
def colorStageByte (s : State) (w bX bY x y ch : Nat) : Nat :=
  let o := 16 * (bY * ceilDiv4 w + bX)
  let idx := colorIdx s.cfg.colorIndexOrder (srcAt s (o + 12 + y)) x
  tableChannel true (srcAt s (o + 8) + 256 * srcAt s (o + 9)) (srcAt s (o + 10) + 256 * srcAt s (o + 11)) ch idx

/-- The explicit alpha of a pixel of a DXT3 image: 17 times its nibble, low nibble first (R84, R132). -/
def dxt3AlphaByte (s : State) (w bX bY x y : Nat) : Nat :=
  let v := srcAt s (16 * (bY * ceilDiv4 w + bX) + (4 * y + x) / 2)
  17 * (if (4 * y + x) % 2 = 0 then bits v 0 4 else bits v 4 4)

/-- Entry `i` of the alpha table with endpoints `a0`, `a1`; none where it is unset (R135 to R138). -/
def alphaTableEntry (alpha7 : Option Byte) (a0 a1 i : Nat) : Option Nat :=
  if i = 0 then some a0
  else if i = 1 then some a1
  else if a0 ≥ a1 then some (((8 - i) * a0 + (i - 1) * a1) / 7)
  else if i ≤ 5 then some (((6 - i) * a0 + (i - 1) * a1) / 5)
  else if i = 6 then some 0
  else alpha7.map BitVec.toNat

/-- The alpha of a pixel of a DXT5 image; none where the pixel selects the unset entry (R134 to R140). -/
def dxt5AlphaByte (s : State) (w bX bY x y : Nat) : Option Nat :=
  let o := 16 * (bY * ceilDiv4 w + bX)
  let b := fun j => srcAt s (o + j)
  let p := 4 * y + x
  let be := ((((b 2 * 256 + b 3) * 256 + b 4) * 256 + b 5) * 256 + b 6) * 256 + b 7
  let le := ((((b 7 * 256 + b 6) * 256 + b 5) * 256 + b 4) * 256 + b 3) * 256 + b 2
  let idx :=
    match s.cfg.dxt5IndexLayout with
    | .be48MsbFirst => bits be (45 - 3 * p) 3
    | .le48MsbFirst => bits le (45 - 3 * p) 3
    | .le48LsbFirst => bits le (3 * p) 3
  alphaTableEntry s.cfg.dxt5Alpha7 (b 0) (b 1) idx

/-- Byte `ch` of pixel `(x, y)` of block `(bX, bY)` of a DXT request; none where its alpha entry is unset, and for a
request that is not a DXT one. -/
def dxtByte (i : Instr) (s : State) (bX bY x y ch : Nat) : Option Nat :=
  match i with
  | .dxt1 w _            => some (dxt1Byte 255 s w bX bY x y ch)
  | .dxt1OneBitAlpha w _ => some (dxt1Byte 0 s w bX bY x y ch)
  | .dxt3 w _ =>
    if ch = 3 then some (dxt3AlphaByte s w bX bY x y) else some (colorStageByte s w bX bY x y ch)
  | .dxt5 w _ =>
    if ch = 3 then dxt5AlphaByte s w bX bY x y else some (colorStageByte s w bX bY x y ch)
  | _ => none

/-- A request is one of the four DXT formats. -/
def isDxt (i : Instr) : Prop := fmtOf i ∈ [0x0D, 0x0E, 0x0F, 0x14]

/-- The indices of a byte of a block pixel: block `(bX, bY)` of the grid, pixel `(x, y)`, channel `ch` (R120, R121). -/
def InGrid (w h bX bY x y ch : Nat) : Prop :=
  bX < ceilDiv4 w ∧ bY < ceilDiv4 h ∧ x < 4 ∧ y < 4 ∧ ch < 4

/-- A DXT request meets what R66 asks before it is decoded: room in both windows, and no pixel that selects an unset
alpha entry (R138, R162, R163). -/
def DxtReady (i : Instr) (s : State) : Prop :=
  srcNeed i ≤ s.srcLen ∧ dstNeed i ≤ s.dstLen ∧
    ∀ bX bY x y ch, InGrid i.width i.height bX bY x y ch → dxtByte i s bX bY x y ch ≠ none

/-- The channels R, G, B, A of a pixel of a packed-16 request with 16-bit source value `v` (R81, R84, R101 to R106). -/
def packedChannels (i : Instr) (v : Nat) : List Nat :=
  match i with
  | .rgb565 _ _   => [up5 (bits v 0 5), up6 (bits v 5 6), up5 (bits v 11 5), 255]
  | .bgr565 _ _   => [up5 (bits v 11 5), up6 (bits v 5 6), up5 (bits v 0 5), 255]
  | .bgra4444 _ _ => [17 * bits v 8 4, 17 * bits v 4 4, 17 * bits v 0 4, 17 * bits v 12 4]
  | .bgra5551 _ _ =>
    [up5 (bits v 10 5), up5 (bits v 5 5), up5 (bits v 0 5), if bits v 15 1 = 1 then 255 else 0]
  | .bgrx5551 _ _ => [up5 (bits v 10 5), up5 (bits v 5 5), up5 (bits v 0 5), 255]
  | _             => []

/-- `v` is in `V(o)`, the values that a request writes to offset `o` (R45): of a DXT request the bytes of the block
pixels there, of a packed-16 request the one channel there. -/
def WritesByte (i : Instr) (s : State) (o v : Nat) : Prop :=
  (isDxt i ∧ ∃ bX bY x y ch, InGrid i.width i.height bX bY x y ch ∧ o = doff i.width bX bY x y + ch ∧
    dxtByte i s bX bY x y ch = some v) ∨
  (¬isDxt i ∧ ∃ p < i.width * i.height, ∃ ch < 4, o = 4 * p + ch ∧
    v = (packedChannels i (le16 (s.src.read (2 * p)) (s.src.read (2 * p + 1)))).getD ch 0)

/-- A request's bytes are determined: the order is REFERENCE, or no offset is written twice (R187). -/
def WritesDetermined (i : Instr) (s : State) : Prop :=
  s.cfg.writeOrder = .reference ∨ ¬isDxt i ∨ i.width % 4 = 0

/-- Windows `d` and `d'` became `m` and `m'` by the writes of `i` at `s`: both hold a value of `V(o)` where it has one, the
same where it is determined, and every other byte is kept (R27, R45, R46). -/
def WrittenAlike (i : Instr) (s : State) (d d' m m' : Memory) : Prop :=
  (∀ o, (∃ v, WritesByte i s o v) → WritesByte i s o (m.read o).toNat ∧ WritesByte i s o (m'.read o).toNat ∧
    (WritesDetermined i s → m'.read o = m.read o)) ∧
  (∀ o, (∀ v, ¬WritesByte i s o v) → m.read o = d.read o ∧ m'.read o = d'.read o)

/-- No pixel of the grid at the same offset comes after this one in reference order: blocks by `by`, then `bx`, then
pixels by `p = 4·y + x` (R142). -/
def LastAtItsOffset (w h bX bY x y : Nat) : Prop :=
  ∀ bX' bY' x' y', InGrid w h bX' bY' x' y' 0 → doff w bX' bY' x' y' = doff w bX bY x y →
    bY' < bY ∨ (bY' = bY ∧ (bX' < bX ∨ (bX' = bX ∧ 4 * y' + x' ≤ 4 * y + x)))

/-! ### Terms about states -/

/-- The block executes a request in this step: one is in progress and the host does not assert reset (R180). -/
def Executing (s : State) : Prop := s.inProgress = true ∧ s.resetNext = false

/-- `t` has the outcome and cause codes of a request that ended, `FAULT_SEEN` set by FAULT and REFUSED, kept by DONE, and
the reserved bits 0 (R24, R25). -/
def StatusIs (s t : State) (outcome cause : Nat) : Prop :=
  (statusOutcome t.status).toNat = outcome ∧ (statusCause t.status).toNat = cause ∧ statusReserved t.status = 0 ∧
    statusFaultSeen t.status = (statusFaultSeen s.status || decide (outcome ≠ 1))

/-- Everything but `D`, `STATUS` and the scratch tables is as before, and the request is over (R23, R27, R41). -/
def KeepsRegisters (s t : State) : Prop :=
  t.src = s.src ∧ t.cmd = s.cmd ∧ t.srcLen = s.srcLen ∧ t.dstLen = s.dstLen ∧ t.cfg = s.cfg ∧ t.events = s.events ∧
    t.inProgress = false

/-- A packed-16 request decodes every pixel: for every size, room in both windows makes it end DONE with the four bytes
of pixel `i` at offset `4·i`, given by `R`, `G`, `B`, `A` of the 16-bit source value, and no other byte of `D` changed. -/
def PackedResult (mk : Nat → Nat → Instr) (R G B A : Nat → Nat) : Prop :=
  ∀ (w h : Nat) (s : State), s.dst.wf = true → 2 * w * h ≤ s.srcLen → 4 * w * h ≤ s.dstLen →
    ∃ t, exec (mk w h) s = .next t ∧ StatusIs s t 1 0 ∧ KeepsRegisters s t ∧
      (∀ i, i < w * h →
        (t.dst.read (4 * i)).toNat = R (le16 (s.src.read (2 * i)) (s.src.read (2 * i + 1))) ∧
        (t.dst.read (4 * i + 1)).toNat = G (le16 (s.src.read (2 * i)) (s.src.read (2 * i + 1))) ∧
        (t.dst.read (4 * i + 2)).toNat = B (le16 (s.src.read (2 * i)) (s.src.read (2 * i + 1))) ∧
        (t.dst.read (4 * i + 3)).toNat = A (le16 (s.src.read (2 * i)) (s.src.read (2 * i + 1)))) ∧
      (∀ o, 4 * w * h ≤ o → t.dst.read o = s.dst.read o)

/-- A DXT request decodes every block: for every size, when it is ready it ends DONE, every byte that a block pixel is
written to holds the value of a block pixel written there, and no other byte of `D` changed. -/
def DxtResult (mk : Nat → Nat → Instr) : Prop :=
  ∀ (w h : Nat) (s : State), s.dst.wf = true → DxtReady (mk w h) s →
    ∃ t, exec (mk w h) s = .next t ∧ StatusIs s t 1 0 ∧ KeepsRegisters s t ∧
      (∀ bX bY x y ch, InGrid w h bX bY x y ch →
        ∃ bX' bY' x' y' ch', InGrid w h bX' bY' x' y' ch' ∧
          doff w bX' bY' x' y' + ch' = doff w bX bY x y + ch ∧
          some (t.dst.read (doff w bX bY x y + ch)).toNat = dxtByte (mk w h) s bX' bY' x' y' ch') ∧
      (∀ o, (∀ bX bY x y ch, InGrid w h bX bY x y ch → o ≠ doff w bX bY x y + ch) → t.dst.read o = s.dst.read o)

end Sys2Proof.Claims

open Sys2Proof Sys2Proof.Machine Sys2Proof.Claims

/-! ### Encoding -/

/-- The command words of the nine formats, with sizes, decode to their requests (R61, R62, R68); a word with a reserved
bit and a word with the palette's code decode to nothing (R63, R64). -/
def Obligations.CommandWordsDecodeToTheirRequests : Prop :=
  decode 0x0000000200030004 = .ok (.rgb565 3 2) ∧
  decode 0x000000040006000D = .ok (.dxt1 6 4) ∧
  decode 0x000000050005000E = .ok (.dxt3 5 5) ∧
  decode 0x000000040010000F = .ok (.dxt5 16 4) ∧
  decode 0x0000000100010011 = .ok (.bgr565 1 1) ∧
  decode 0x0000FFFF00000012 = .ok (.bgrx5551 0 65535) ∧
  decode 0x0000000700000013 = .ok (.bgra4444 0 7) ∧
  decode 0x0000000400040014 = .ok (.dxt1OneBitAlpha 4 4) ∧
  decode 0x00000100FFFF0015 = .ok (.bgra5551 65535 256) ∧
  decode 0x0000000100010007 = .error .badFormat ∧
  decode 0x00000001000101FF = .error .reservedBits ∧
  decode 0x0001000100010004 = .error .reservedBits

/-- Decoding an encoded well-formed request gives it back, every `W` and `H` in 0..65535 (R61, R62, R68). -/
def Obligations.EncodeThenDecodeGivesTheRequestBack : Prop :=
  ∀ i : Instr, i.wellFormed = true → decode (encode i) = .ok i

/-- A word that decodes is the encoding of the well-formed request it decodes to: each word has one meaning (R69). -/
def Obligations.DecodedWordEncodesBack : Prop :=
  ∀ (cmd : BitVec 64) (i : Instr), decode cmd = .ok i → i.wellFormed = true ∧ encode i = cmd

/-- A word disassembles to a statement that assembles to the same word, or to a raw word, exactly when its reserved
fields are 0 and its format code is one of the nine (R68, R69). -/
def Obligations.DisassemblyAssemblesBack : Prop :=
  ∀ cmd : BitVec 64,
    ((bits cmd.toNat 8 8 = 0 ∧ bits cmd.toNat 48 16 = 0 ∧ bits cmd.toNat 0 8 ∈ fmtCodes) →
      ∃ i, disassemble cmd = .statement i ∧ i.width = bits cmd.toNat 16 16 ∧ i.height = bits cmd.toNat 32 16 ∧
        fmtOf i = bits cmd.toNat 0 8 ∧ assemble (mnemonic i) i.width i.height = some cmd) ∧
    (¬(bits cmd.toNat 8 8 = 0 ∧ bits cmd.toNat 48 16 = 0 ∧ bits cmd.toNat 0 8 ∈ fmtCodes) →
      disassemble cmd = .rawCmd cmd)

/-! ### The step -/

/-- A request in progress whose command word decodes is executed by `exec`, as a whole (R22, R66). That this is one step,
and a step apart from the one that issues the request, is the model's own (log entry 1). -/
def Obligations.StepRunsTheDecodedRequest : Prop :=
  ∀ (s : State) (i : Instr), Executing s → decode s.cmd = .ok i → step s = exec i s

/-- The machine never stops: every step from every state answers a next state, for each outcome of a request leaves the
block ready for the next one (R160, R168); with no request and nothing from the host it waits (R181). The model's
`inProgress` and its host events are log entry 1. -/
def Obligations.EveryStepAnswersNext : Prop :=
  ∀ s : State, ∃ t, step s = .next t ∧ (Executing s → t.inProgress = false) ∧
    (s.inProgress = false → s.events = [] → t = s)

/-- A command word with reserved bits set, or with a format code outside the nine, is refused: STATUS records it, and
nothing else of the machine changes but the scratch tables; no byte of `S` matters (R161). -/
def Obligations.RefusedRequestTouchesNothing : Prop :=
  ∀ s : State, Executing s →
    ((bits s.cmd.toNat 8 8 ≠ 0 ∨ bits s.cmd.toNat 48 16 ≠ 0) →
      ∃ t, step s = .next t ∧ StatusIs s t 3 0x11 ∧ KeepsRegisters s t ∧ t.dst = s.dst ∧
        ∀ m, ∃ t', step { s with src := m } = .next t' ∧ t'.status = t.status ∧ t'.dst = t.dst) ∧
    ((bits s.cmd.toNat 8 8 = 0 ∧ bits s.cmd.toNat 48 16 = 0 ∧ bits s.cmd.toNat 0 8 ∉ fmtCodes) →
      ∃ t, step s = .next t ∧ StatusIs s t 3 0x10 ∧ KeepsRegisters s t ∧ t.dst = s.dst ∧
        ∀ m, ∃ t', step { s with src := m } = .next t' ∧ t'.status = t.status ∧ t'.dst = t.dst)

/-- The outcome of every request is the first of RESERVED_BITS, BAD_FORMAT, SRC_RANGE, DST_RANGE, ALPHA7_UNSET whose
condition holds, and DONE when none does; it depends on no byte of `S` at or beyond `SrcReq` and on no byte of `D` (R160
to R165). -/
def Obligations.RequestEndsByPriority : Prop :=
  ∀ s : State, Executing s →
    let f := bits s.cmd.toNat 0 8
    let w := bits s.cmd.toNat 16 16
    let h := bits s.cmd.toNat 32 16
    let reserved := bits s.cmd.toNat 8 8 ≠ 0 ∨ bits s.cmd.toNat 48 16 ≠ 0
    let badFormat := f ∉ fmtCodes
    let srcShort := s.srcLen < srcReqOf f w h
    let dstShort := s.dstLen < dstReqOf f w h
    let unset := f = 0x0F ∧ ∃ bX bY x y, InGrid w h bX bY x y 3 ∧ dxt5AlphaByte s w bX bY x y = none
    ∃ t, step s = .next t ∧
      (reserved → StatusIs s t 3 0x11) ∧
      (¬reserved → badFormat → StatusIs s t 3 0x10) ∧
      (¬reserved → ¬badFormat → srcShort → StatusIs s t 2 0x01) ∧
      (¬reserved → ¬badFormat → ¬srcShort → dstShort → StatusIs s t 2 0x02) ∧
      (¬reserved → ¬badFormat → ¬srcShort → ¬dstShort → unset → StatusIs s t 2 0x03) ∧
      (¬reserved → ¬badFormat → ¬srcShort → ¬dstShort → ¬unset → StatusIs s t 1 0x00) ∧
      ∀ m d : Memory, (∀ o, o < srcReqOf f w h → m.read o = s.src.read o) →
        ∃ t', step { s with src := m, dst := d } = .next t' ∧ t'.status = t.status

/-- A fault of each of the three causes, for every format (R164): STATUS has the cause, `S` is unchanged (R166), and the
registers are unchanged (R23, R167). Of the bytes of `D`, those below `DST_LEN`, nothing is said, since R166 leaves them
unspecified. That the bytes at or beyond `DST_LEN`, outside the window, are unchanged is the model's own (log entry 10). -/
def Obligations.FaultKeepsEverythingButTheWindow : Prop :=
  ∀ (i : Instr) (s : State), s.dst.wf = true →
    (s.srcLen < srcNeed i →
      ∃ t, exec i s = .next t ∧ StatusIs s t 2 0x01 ∧ KeepsRegisters s t ∧
        ∀ o, s.dstLen ≤ o → t.dst.read o = s.dst.read o) ∧
    (srcNeed i ≤ s.srcLen → s.dstLen < dstNeed i →
      ∃ t, exec i s = .next t ∧ StatusIs s t 2 0x02 ∧ KeepsRegisters s t ∧
        ∀ o, s.dstLen ≤ o → t.dst.read o = s.dst.read o) ∧
    (isDxt i → srcNeed i ≤ s.srcLen → dstNeed i ≤ s.dstLen →
      (∃ bX bY x y ch, InGrid i.width i.height bX bY x y ch ∧ dxtByte i s bX bY x y ch = none) →
      ∃ t, exec i s = .next t ∧ StatusIs s t 2 0x03 ∧ KeepsRegisters s t ∧
        ∀ o, s.dstLen ≤ o → t.dst.read o = s.dst.read o)

/-- A request the host issues is latched and executed within two steps: the registers take the operands, the lengths as
unsigned values of `LEN_BITS` bits, and the outcome is in STATUS (R23, R65, R169). The two steps are the model's own cut
(log entry 1), and the truncation of a length that does not fit is log entry 7. -/
def Obligations.IssuedRequestEndsInTwoSteps : Prop :=
  ∀ (s : State) (cmd : BitVec 64) (a b : Nat) (es : List HostEvent),
    s.inProgress = false → s.events = .request cmd a b :: es → (∀ e, es.head? = some e → e.isReset = false) →
    ∃ t u, step s = .next t ∧ t.inProgress = true ∧ t.cmd = cmd ∧
      t.srcLen = (match s.cfg.lenBits with | none => a | some k => a % 2 ^ k) ∧
      t.dstLen = (match s.cfg.lenBits with | none => b | some k => b % 2 ^ k) ∧
      t.src = s.src ∧ t.dst = s.dst ∧ t.status = s.status ∧ t.cfg = s.cfg ∧
      step t = .next u ∧ u.inProgress = false ∧ statusOutcome u.status ≠ 0 ∧ u.events = es

/-! ### STATUS and reset -/

/-- At the end of every request OUTCOME and CAUSE are written together and FAULT_SEEN is set unless it is DONE; no other
step but reset changes STATUS; OUTCOME returns to 0 only by reset (R25). -/
def Obligations.StatusIsWrittenAtTheEndOfARequest : Prop :=
  (∀ s : State, Executing s → ∃ (t : State) (o : RequestOutcome), step s = .next t ∧
    (statusOutcome t.status).toNat = (match o with | .done => 1 | .fault _ => 2 | .refused _ => 3) ∧
    (statusCause t.status).toNat =
      (match o with
        | .done => 0
        | .fault .srcRange => 0x01
        | .fault .dstRange => 0x02
        | .fault .alpha7Unset => 0x03
        | .refused .badFormat => 0x10
        | .refused .reservedBits => 0x11) ∧
    statusFaultSeen t.status = (match o with | .done => statusFaultSeen s.status | _ => true)) ∧
  (∀ s t : State, ¬Executing s → s.resetNext = false → step s = .next t → t.status = s.status) ∧
  (∀ s t : State, s.resetNext = false → step s = .next t → statusOutcome s.status ≠ 0 → statusOutcome t.status ≠ 0)

/-- Once FAULT_SEEN is set, no number of steps without a reset clears it (R26). -/
def Obligations.FaultSeenStaysUntilReset : Prop :=
  ∀ (k : Nat) (s t : State), statusFaultSeen s.status = true → (∀ e ∈ s.events, e.isReset = false) →
    Sys2Proof.core.run k s = .next t → statusFaultSeen t.status = true

/-- Reset sets STATUS to 0 and leaves `S` and, with no request in progress, `D` as they are; a request in progress is
abandoned and its outcome not reported (R180). That bytes at or beyond `DST_LEN` survive an abandoned request, of which
R180 says only that `D` is unspecified, is the model's own (log entries 10 and 12). -/
def Obligations.ResetClearsStatusAndKeepsTheWindows : Prop :=
  ∀ (s : State) (es : List HostEvent), s.dst.wf = true → s.events = .reset :: es →
    ∃ t, step s = .next t ∧ t.status = 0 ∧ t.inProgress = false ∧ t.src = s.src ∧ t.cfg = s.cfg ∧ t.events = es ∧
      (s.inProgress = false → t.dst = s.dst) ∧ (∀ o, s.dstLen ≤ o → t.dst.read o = s.dst.read o)

/-- The state after reset: STATUS is 0 and no request is in progress (R23, R24, R32, R180), and the invariant holds. That
it holds rests on the model's own choices for `State.reset`: windows that list nothing (log entry 5) and lengths of 0 (log
entry 3). -/
def Obligations.ResetStateMeetsTheInvariant : Prop :=
  State.reset.status = 0 ∧ State.reset.inProgress = false ∧ State.reset.Inv

/-- Every step keeps the invariant: windows in canonical form (R44 to R46), STATUS one of its eight legal values with
the reserved bits 0 (R24 to R26), lengths within `LEN_BITS` (R9; the truncation that keeps them so is log entry 7). The
canonical form is the model's own (log entry 5). -/
def Obligations.StepKeepsTheInvariant : Prop :=
  ∀ s t : State, s.Inv → step s = .next t → t.Inv

/-! ### What a request leaves alone, and what it does not depend on -/

/-- The block never writes `S` (R41): no request and no reset changes the source window. -/
def Obligations.BlockNeverWritesSource : Prop :=
  (∀ (i : Instr) (s t : State), exec i s = .next t → t.src = s.src) ∧
  (∀ s t : State, Executing s ∨ s.resetNext = true → step s = .next t → t.src = s.src)

/-- No result depends on the contents of `D` before the request (R42): with another `D`, and any other free values, the
outcome is the same, and after DONE, the premise that R166 asks for, the same values were written: from one set at every
offset, equal where the order decides (R27, R45), and every other byte is kept. -/
def Obligations.ResultDoesNotDependOnDestination : Prop :=
  ∀ (i : Instr) (s : State) (d : Memory) (n : Nat), s.dst.wf = true → d.wf = true →
    ∃ t t', exec i s = .next t ∧ exec i { s with dst := d, draws := n } = .next t' ∧ t'.status = t.status ∧
      (statusOutcome t.status = 1 → WrittenAlike i s s.dst d t.dst t'.dst)

/-- No byte of `S` at or beyond `SrcReq` is read (R162): changing such bytes, and any free values, does not change the
outcome, and after DONE, the premise that R166 asks for, the same values were written: from one set at every offset, equal
where the order decides (R27, R45), and every other byte is kept. -/
def Obligations.SourceBeyondTheRequirementIsNotRead : Prop :=
  ∀ (i : Instr) (s : State) (m : Memory) (n : Nat), s.dst.wf = true →
    (∀ o, o < srcNeed i → m.read o = s.src.read o) →
    ∃ t t', exec i s = .next t ∧ exec i { s with src := m, draws := n } = .next t' ∧ t'.status = t.status ∧
      (statusOutcome t.status = 1 → WrittenAlike i s s.dst s.dst t.dst t'.dst)

/-- Two requests with equal bytes of `S`, lengths and configuration end alike, whatever ran before them (any STATUS, tables,
free values and `D`); after DONE they have written values from one set at every offset, and equal bytes when the order is
REFERENCE or no offset is written twice (R27, R143, R187). -/
def Obligations.EqualRequestsWriteEqualBytes : Prop :=
  ∀ (i : Instr) (s s' : State), s.dst.wf = true → s'.dst.wf = true → s'.cfg = s.cfg → s'.srcLen = s.srcLen →
    s'.dstLen = s.dstLen → (∀ o, o < srcNeed i → s'.src.read o = s.src.read o) →
    ∃ t t', exec i s = .next t ∧ exec i s' = .next t' ∧ statusOutcome t'.status = statusOutcome t.status ∧
      statusCause t'.status = statusCause t.status ∧
      (statusOutcome t.status = 1 → WrittenAlike i s s.dst s'.dst t.dst t'.dst ∧
        (WritesDetermined i s → (∀ o, s'.dst.read o = s.dst.read o) → ∀ o, t'.dst.read o = t.dst.read o))

/-- A request changes nothing but `D`, STATUS and the scratch tables, and ends (R23, R27, R167); when it ends DONE no byte
at or above `DstReq` changes (R163). That after a fault the bytes at or beyond `DST_LEN`, outside the window, are unchanged
is the model's own (log entry 10). -/
def Obligations.RequestChangesOnlyStatusAndWindow : Prop :=
  ∀ (i : Instr) (s t : State), s.dst.wf = true → exec i s = .next t →
    KeepsRegisters s t ∧ (∀ o, s.dstLen ≤ o → t.dst.read o = s.dst.read o) ∧
      (statusOutcome t.status = 1 → ∀ o, dstNeed i ≤ o → t.dst.read o = s.dst.read o)

/-- A request with `W = 0` or `H = 0` ends DONE with windows of any length and writes nothing (R65). -/
def Obligations.ZeroSizedRequestWritesNothing : Prop :=
  ∀ (i : Instr) (s : State), i.width = 0 ∨ i.height = 0 →
    ∃ t, exec i s = .next t ∧ StatusIs s t 1 0 ∧ KeepsRegisters s t ∧ t.dst = s.dst

/-- A commit gives every offset in the write list one of the values written to it, the last one under REFERENCE, and
keeps every other byte (R45, R46). -/
def Obligations.CommitGivesEachByteOneOfItsValues : Prop :=
  ∀ (order : WriteOrder) (draw : Nat) (wl : WriteList) (m : Memory) (o : Nat), m.wf = true →
    (((∃ v, (o, v) ∈ wl) → (o, (commit order draw wl m).read o) ∈ wl) ∧
     (∀ v xs ys, order = .reference → wl = xs ++ (o, v) :: ys → (∀ u, (o, u) ∉ ys) →
        (commit order draw wl m).read o = v) ∧
     ((∀ v, (o, v) ∉ wl) → (commit order draw wl m).read o = m.read o))

/-- A window that the host places, `S` or `D`, reads as the last byte given for each offset (R183), and nothing but that
window changes. An offset it gives no byte reads 0: of `D` the host supplies it so (R46), of `S` it is the model's own (log
entry 5). That placing a window is a step is log entry 1. -/
def Obligations.WindowHoldsWhatTheHostPlaced : Prop :=
  ∀ (s : State) (cells : List Host.Cell) (es : List HostEvent), s.inProgress = false →
    (s.events = .loadSource cells :: es →
      ∃ t, step s = .next t ∧ t.src.wf = true ∧ t.dst = s.dst ∧ t.status = s.status ∧
        KeepsRegisters { s with src := t.src, events := es } t ∧
        (∀ o v xs ys, cells = xs ++ (o, v) :: ys → (∀ u, (o, u) ∉ ys) → t.src.read o = v) ∧
        (∀ o, (∀ v, (o, v) ∉ cells) → t.src.read o = 0)) ∧
    (s.events = .loadDest cells :: es →
      ∃ t, step s = .next t ∧ t.dst.wf = true ∧ t.status = s.status ∧ KeepsRegisters { s with events := es } t ∧
        (∀ o v xs ys, cells = xs ++ (o, v) :: ys → (∀ u, (o, u) ∉ ys) → t.dst.read o = v) ∧
        (∀ o, (∀ v, (o, v) ∉ cells) → t.dst.read o = 0))

/-! ### Components -/

/-- The 565 unpacker in closed form, and when a channel is 0 or 255 (R86). -/
def Obligations.Unpack565ClosedForm : Prop :=
  ∀ a b : Byte,
    let r5 := bits (le16 a b) 0 5
    let g6 := bits (le16 a b) 5 6
    let b5 := bits (le16 a b) 11 5
    ((unpack565 a b).1.toNat = 8 * r5 + r5 / 4 ∧ (unpack565 a b).2.1.toNat = 4 * g6 + g6 / 16 ∧
      (unpack565 a b).2.2.toNat = 8 * b5 + b5 / 4) ∧
    ((unpack565 a b).1 = 0 ↔ r5 = 0) ∧ ((unpack565 a b).2.1 = 0 ↔ g6 = 0) ∧ ((unpack565 a b).2.2 = 0 ↔ b5 = 0) ∧
    ((unpack565 a b).1 = 255 ↔ r5 = 31) ∧ ((unpack565 a b).2.1 = 255 ↔ g6 = 63) ∧
    ((unpack565 a b).2.2 = 255 ↔ b5 = 31)

/-- The approximate comparison against the numeric one (R144). -/
def Obligations.ApproximateComparisonAgainstNumeric : Prop :=
  ∀ s0 s1 s2 s3 : Byte,
    (le16 s0 s1 > le16 s2 s3 → gt565 s0 s1 s2 s3 = true) ∧
    (le16 s0 s1 = le16 s2 s3 → gt565 s0 s1 s2 s3 = false) ∧
    (s0.toNat > s2.toNat → s1.toNat < s3.toNat → gt565 s0 s1 s2 s3 = true ∧ le16 s0 s1 < le16 s2 s3)

/-- The color table and FOUR of a DXT1 block are functions of its bytes and BA, whatever the tables held before: FOUR
selects the four-color or the three-color form (R124 to R127, R143). -/
def Obligations.Dxt1BlockBuildsItsColorTable : Prop :=
  ∀ (blk : List Byte) (d : Datapath),
    let b := fun i => (blockByte blk i).toNat
    let four := decide (b 0 > b 2 ∨ b 1 > b 3)
    let t := buildDxt1 blk d
    t.four = four ∧ t.ba = d.ba ∧
      (∀ idx : BitVec 2, ∀ ch < 3, (pixelByte (colorEntry t.ct idx) ch).toNat =
        tableChannel four (b 0 + 256 * b 1) (b 2 + 256 * b 3) ch idx.toNat) ∧
      (∀ idx : BitVec 2, (colorEntry t.ct idx).a = if idx = 3 then d.ba else 255)

/-- The alpha table and A8MODE of a DXT5 block are functions of its endpoint bytes, whatever the table held before: the
endpoints, the six 7-step interpolants or the four 5-step interpolants, 0 and `DXT5_ALPHA7`; with equal endpoints every
entry is that value (R135 to R138). -/
def Obligations.Dxt5BlockBuildsItsAlphaTable : Prop :=
  ∀ (alpha7 : Option Byte) (blk : List Byte) (d : Datapath),
    let a0 := (blockByte blk 0).toNat
    let a1 := (blockByte blk 1).toNat
    let t := buildAlpha alpha7 blk d
    let entry := fun i : Nat => (alphaEntry t.atab (BitVec.ofNat 3 i)).map BitVec.toNat
    t.a8mode = decide (a0 ≥ a1) ∧ entry 0 = some a0 ∧ entry 1 = some a1 ∧
      (a0 ≥ a1 → ∀ i, 2 ≤ i → i ≤ 7 → entry i = some (((8 - i) * a0 + (i - 1) * a1) / 7)) ∧
      (a0 = a1 → ∀ i, i ≤ 7 → entry i = some a0) ∧
      (a0 < a1 → ∀ i, 2 ≤ i → i ≤ 5 → entry i = some (((6 - i) * a0 + (i - 1) * a1) / 5)) ∧
      (a0 < a1 → entry 6 = some 0 ∧ entry 7 = alpha7.map BitVec.toNat)

/-! ### The packed-16 formats -/

/-- RGB565 decodes every pixel: R, G, B from the low, middle and high field, alpha 255 (R100 to R102). -/
def Obligations.Rgb565DecodesEveryPixel : Prop :=
  PackedResult .rgb565 (fun v => up5 (bits v 0 5)) (fun v => up6 (bits v 5 6)) (fun v => up5 (bits v 11 5))
    (fun _ => 255)

/-- BGR565 decodes every pixel: R from the high field, B from the low field, alpha 255 (R100, R101, R103). -/
def Obligations.Bgr565DecodesEveryPixel : Prop :=
  PackedResult .bgr565 (fun v => up5 (bits v 11 5)) (fun v => up6 (bits v 5 6)) (fun v => up5 (bits v 0 5))
    (fun _ => 255)

/-- BGRA4444 decodes every pixel: every channel is 17 times its nibble (R84, R100, R101, R104). -/
def Obligations.Bgra4444DecodesEveryPixel : Prop :=
  PackedResult .bgra4444 (fun v => 17 * bits v 8 4) (fun v => 17 * bits v 4 4) (fun v => 17 * bits v 0 4)
    (fun v => 17 * bits v 12 4)

/-- BGRA5551 decodes every pixel: alpha is 255 or 0 by the top bit (R100, R101, R105). -/
def Obligations.Bgra5551DecodesEveryPixel : Prop :=
  PackedResult .bgra5551 (fun v => up5 (bits v 10 5)) (fun v => up5 (bits v 5 5)) (fun v => up5 (bits v 0 5))
    (fun v => if bits v 15 1 = 1 then 255 else 0)

/-- BGRX5551 decodes every pixel: the top bit is ignored and alpha is 255 (R100, R101, R106). -/
def Obligations.Bgrx5551DecodesEveryPixel : Prop :=
  PackedResult .bgrx5551 (fun v => up5 (bits v 10 5)) (fun v => up5 (bits v 5 5)) (fun v => up5 (bits v 0 5))
    (fun _ => 255)

/-! ### The DXT formats -/

/-- DXT1 decodes every block, of an image of any size (R120 to R129). -/
def Obligations.Dxt1DecodesEveryBlock : Prop := DxtResult .dxt1

/-- DXT1_ONEBITALPHA decodes every block: as DXT1 with black alpha 0 (R67, R130). -/
def Obligations.Dxt1OneBitAlphaDecodesEveryBlock : Prop := DxtResult .dxt1OneBitAlpha

/-- DXT3 decodes every block: four colors always, explicit alpha (R131 to R133). -/
def Obligations.Dxt3DecodesEveryBlock : Prop := DxtResult .dxt3

/-- DXT5 decodes every block none of whose pixels selects an unset alpha entry (R131, R134 to R141). -/
def Obligations.Dxt5DecodesEveryBlock : Prop := DxtResult .dxt5

/-- With `W` a multiple of 4 every pixel of the image, and of the rows that pad the last block row, is decoded in place,
whatever the write order (R46, R49, R121, R185). -/
def Obligations.AlignedWidthImageDecodesInPlace : Prop :=
  ∀ (i : Instr) (s : State), isDxt i → s.dst.wf = true → i.width % 4 = 0 → DxtReady i s →
    ∃ t, exec i s = .next t ∧ StatusIs s t 1 0 ∧
      ∀ X Y ch, X < i.width → Y < 4 * ceilDiv4 i.height → ch < 4 →
        some (t.dst.read (4 * (i.width * Y + X) + ch)).toNat = dxtByte i s (X / 4) (Y / 4) (X % 4) (Y % 4) ch

/-- The edge-block hazard under REFERENCE (R142, R184). With `W ≥ 4`, in rows 1 to 3 of each block row the first `4·bw - W`
pixels hold the edge block's overflow of the row above, and every other image pixel its own block's value. With `W` below
4, a later row is a later write, so every image pixel holds its own value. For every `W` the overflow of the last row lies
beyond the block rows. -/
def Obligations.EdgeBlockWinsUnderReferenceOrder : Prop :=
  ∀ (i : Instr) (s : State), isDxt i → s.dst.wf = true → s.cfg.writeOrder = .reference → DxtReady i s →
    ∃ t, exec i s = .next t ∧ StatusIs s t 1 0 ∧
      (∀ X Y ch, X < i.width → Y < 4 * ceilDiv4 i.height → ch < 4 →
        some (t.dst.read (4 * (i.width * Y + X) + ch)).toNat =
          if 4 ≤ i.width ∧ Y % 4 ≠ 0 ∧ X + i.width < 4 * ceilDiv4 i.width then
            dxtByte i s (ceilDiv4 i.width - 1) (Y / 4) ((X + i.width) % 4) (Y % 4 - 1) ch
          else dxtByte i s (X / 4) (Y / 4) (X % 4) (Y % 4) ch) ∧
      (∀ X ch, 0 < i.height → X + i.width < 4 * ceilDiv4 i.width → ch < 4 →
        some (t.dst.read (4 * (i.width * (4 * ceilDiv4 i.height) + X) + ch)).toNat =
          dxtByte i s (ceilDiv4 i.width - 1) (ceilDiv4 i.height - 1) ((X + i.width) % 4) 3 ch)

/-- A DXT image needs exactly `4·W·H` bytes of `D` when both sizes are multiples of 4 and more otherwise, so that with a
window of `4·W·H` bytes an edge image faults DST_RANGE (R163, R184, R185). -/
def Obligations.EdgeImageNeedsMoreThanItsPixels : Prop :=
  ∀ (i : Instr) (s : State), isDxt i → 0 < i.width → 0 < i.height → s.dstLen = 4 * i.width * i.height →
    srcNeed i ≤ s.srcLen →
    (i.width % 4 = 0 → i.height % 4 = 0 → dstNeed i = 4 * i.width * i.height) ∧
    (i.width % 4 ≠ 0 ∨ i.height % 4 ≠ 0 →
      4 * i.width * i.height < dstNeed i ∧ ∃ t, exec i s = .next t ∧ StatusIs s t 2 0x02)

/-- DXT1_ONEBITALPHA differs from DXT1 only in alpha (R67, R130): on one state, with any free values, both end DONE; in
any order every alpha is 255 of DXT1 and 255 or 0 of the other. Where the order decides (REFERENCE, or `W` a multiple of 4),
the pixel last written at an offset has the same R, G, B of both, the table's, and alpha 0 for DXT1's 255 exactly where
its color index is 3; and no other byte differs. -/
def Obligations.OneBitAlphaDiffersOnlyInAlpha : Prop :=
  ∀ (w h : Nat) (s : State) (n : Nat), s.dst.wf = true → DxtReady (.dxt1 w h) s →
    ∃ t t', exec (.dxt1 w h) s = .next t ∧ exec (.dxt1OneBitAlpha w h) { s with draws := n } = .next t' ∧
      StatusIs s t 1 0 ∧ StatusIs s t' 1 0 ∧
      (∀ bX bY x y, InGrid w h bX bY x y 3 → t.dst.read (doff w bX bY x y + 3) = 255 ∧
        (t'.dst.read (doff w bX bY x y + 3) = 255 ∨ t'.dst.read (doff w bX bY x y + 3) = 0)) ∧
      (s.cfg.writeOrder = .reference ∨ w % 4 = 0 →
        (∀ o, o % 4 ≠ 3 → t'.dst.read o = t.dst.read o) ∧
        (∀ o, t'.dst.read o = t.dst.read o ∨ (t.dst.read o = 255 ∧ t'.dst.read o = 0)) ∧
        (∀ bX bY x y, InGrid w h bX bY x y 3 → LastAtItsOffset w h bX bY x y →
          (∀ ch < 3, (t.dst.read (doff w bX bY x y + ch)).toNat = dxt1Byte 255 s w bX bY x y ch ∧
            (t'.dst.read (doff w bX bY x y + ch)).toNat = dxt1Byte 255 s w bX bY x y ch) ∧
          t'.dst.read (doff w bX bY x y + 3) =
            if colorIdx s.cfg.colorIndexOrder (srcAt s (8 * (bY * ceilDiv4 w + bX) + 4 + y)) x = 3 then 0 else 255))

/-- Under REFERENCE each byte of a block pixel holds the value of the last write there in reference order, for every `W`
(R45, R142). -/
def Obligations.LastWriteWinsUnderReferenceOrder : Prop :=
  ∀ (i : Instr) (s : State), isDxt i → s.dst.wf = true → s.cfg.writeOrder = .reference → DxtReady i s →
    ∃ t, exec i s = .next t ∧ StatusIs s t 1 0 ∧
      ∀ bX bY x y ch, InGrid i.width i.height bX bY x y ch → LastAtItsOffset i.width i.height bX bY x y →
        some (t.dst.read (doff i.width bX bY x y + ch)).toNat = dxtByte i s bX bY x y ch
end

