-- ==== Sys2Proof/Laws/Operands.lean ====
section
/-! SUPPORT. The primitives on natural numbers: what each computes of the values of its operands. -/

namespace Sys2Proof.Machine

theorem toNat_extract {n : Nat} (v : BitVec n) (lo len : Nat) :
    (v.extractLsb' lo len).toNat = v.toNat / 2 ^ lo % 2 ^ len := by
  simp [Nat.shiftRight_eq_div_pow]

theorem toNat_append {m n : Nat} (a : BitVec m) (b : BitVec n) : (a ++ b).toNat = a.toNat * 2 ^ n + b.toNat := by
  rw [BitVec.toNat_append, ← Nat.shiftLeft_add_eq_or_of_lt b.isLt, Nat.shiftLeft_eq]

/-- `UPS(5, ·)` of a left-justified 5-bit field (R81). -/
theorem ups_five (f : BitVec 5) : (ups 5 (f.setWidth 8 <<< 3)).toNat = 8 * f.toNat + f.toNat / 4 := by
  revert f; decide

/-- `UPS(6, ·)` of a left-justified 6-bit field (R81). -/
theorem ups_six (f : BitVec 6) : (ups 6 (f.setWidth 8 <<< 2)).toNat = 4 * f.toNat + f.toNat / 16 := by
  revert f; decide

/-- `NIBLO` is 17 times the low nibble (R84). -/
theorem nibLo_toNat (v : Byte) : (nibLo v).toNat = 17 * (v.toNat % 16) := by
  revert v; decide

/-- `NIBHI` is 17 times the high nibble (R84). -/
theorem nibHi_toNat (v : Byte) : (nibHi v).toNat = 17 * (v.toNat / 16) := by
  revert v; decide

/-- A blend whose weights sum to at most the divisor is not truncated (R12). -/
theorem blend_toNat {wa wb d : Nat} (a b : Byte) (h : wa + wb ≤ d) (hd : 0 < d) :
    (blend wa wb d a b).toNat = (wa * a.toNat + wb * b.toNat) / d := by
  have ha : wa * a.toNat ≤ wa * 255 := Nat.mul_le_mul_left _ (by omega)
  have hb : wb * b.toNat ≤ wb * 255 := Nat.mul_le_mul_left _ (by omega)
  simp only [blend, BitVec.toNat_ofNat]
  refine Nat.mod_eq_of_lt ((Nat.div_lt_iff_lt_mul hd).2 ?_)
  omega

/-- A color channel of a blended table entry. -/
theorem blendPixel_channel {wa wb d : Nat} (p q : Pixel) (alpha : Byte) (h : wa + wb ≤ d) (hd : 0 < d) {ch : Nat}
    (hch : ch < 3) : (pixelByte (blendPixel wa wb d p q alpha) ch).toNat =
      (wa * (pixelByte p ch).toNat + wb * (pixelByte q ch).toNat) / d := by
  interval_cases ch <;> exact blend_toNat _ _ h hd

/-- The block grid is in reference order: `by` outer, `bx` inner (R142). -/
theorem blockGrid_pairwise (w h : Nat) :
    (blockGrid w h).Pairwise fun p q => p.2 < q.2 ∨ (p.2 = q.2 ∧ p.1 < q.1) := by
  unfold blockGrid
  rw [List.pairwise_flatMap]
  constructor
  · intro bY _
    rw [List.pairwise_map]
    exact List.pairwise_lt_range.imp fun h => .inr ⟨rfl, h⟩
  · refine List.pairwise_lt_range.imp fun h => ?_
    intro x hx y hy
    obtain ⟨_, _, rfl⟩ := List.mem_map.1 hx
    obtain ⟨_, _, rfl⟩ := List.mem_map.1 hy
    exact .inl h

end Sys2Proof.Machine
end

