-- ==== Sys2Proof/Laws/Memory.lean ====
section
/-! SUPPORT. The windows: reads after writes, and the canonical form kept by every memory operation. -/

namespace Sys2Proof.Machine

@[simp] theorem Memory.read_nil (a : Nat) : Memory.read [] a = unlistedByte := rfl

theorem Memory.read_cons (b : Nat) (v : Byte) (m : Memory) (a : Nat) :
    Memory.read ((b, v) :: m) a = if a = b then v else Memory.read m a := rfl

theorem Memory.wf_cons (a : Nat) (v : Byte) (m : Memory) :
    Memory.wf ((a, v) :: m) = true ↔ v ≠ unlistedByte ∧ (∀ c ∈ m, a < c.1) ∧ Memory.wf m = true := by
  simp [Memory.wf, and_assoc]

/-- An offset that no entry names reads as unlisted. -/
theorem Memory.read_of_not_listed (m : Memory) (a : Nat) (h : ∀ c ∈ m, c.1 ≠ a) : m.read a = unlistedByte := by
  induction m with
  | nil => rfl
  | cons c m ih =>
    obtain ⟨b, v⟩ := c
    have hb : a ≠ b := fun e => h (b, v) (by simp) e.symm
    rw [Memory.read_cons, if_neg hb]
    exact ih fun c hc => h c (by simp [hc])

theorem Memory.read_of_lt {m : Memory} {a : Nat} (h : ∀ c ∈ m, a < c.1) : m.read a = unlistedByte :=
  Memory.read_of_not_listed m a fun c hc => Nat.ne_of_gt (h c hc)

/-- An entry of a written window is the written one or an old one. -/
theorem Memory.mem_write {m : Memory} {a : Nat} {v : Byte} {c : Host.Cell} (h : c ∈ m.write a v) :
    c = (a, v) ∨ c ∈ m := by
  induction m with
  | nil => simp only [Memory.write] at h; split at h <;> simp_all
  | cons d m ih =>
    obtain ⟨b, u⟩ := d
    simp only [Memory.write] at h
    split_ifs at h
    · exact .inr h
    · exact (List.mem_cons.1 h).imp id id
    · exact .inr (List.mem_cons_of_mem _ h)
    · exact (List.mem_cons.1 h).imp id (List.mem_cons_of_mem _)
    · rcases List.mem_cons.1 h with h | h
      · exact .inr (by simp [h])
      · exact (ih h).imp id (List.mem_cons_of_mem _)

/-- A write keeps the canonical form. -/
theorem Memory.wf_write {m : Memory} (h : m.wf = true) (a : Nat) (v : Byte) : (m.write a v).wf = true := by
  induction m with
  | nil => simp only [Memory.write]; split_ifs with hv <;> simp [Memory.wf, hv]
  | cons d m ih =>
    obtain ⟨b, u⟩ := d
    obtain ⟨hu, hb, hm⟩ := (Memory.wf_cons b u m).1 h
    simp only [Memory.write]
    split_ifs with h1 hv h2 hv
    · exact h
    · refine (Memory.wf_cons ..).2 ⟨hv, ?_, h⟩
      intro c hc
      rcases List.mem_cons.1 hc with rfl | hc
      · exact h1
      · exact Nat.lt_trans h1 (hb c hc)
    · exact hm
    · subst h2; exact (Memory.wf_cons ..).2 ⟨hv, hb, hm⟩
    · refine (Memory.wf_cons ..).2 ⟨hu, ?_, ih hm⟩
      intro c hc
      rcases Memory.mem_write hc with rfl | hc
      · exact Nat.lt_of_le_of_ne (Nat.le_of_not_lt h1) fun e => h2 e.symm
      · exact hb c hc

/-- A read after a write: the written byte at its offset, the old byte at every other. -/
theorem Memory.read_write {m : Memory} (h : m.wf = true) (a : Nat) (v : Byte) (b : Nat) :
    (m.write a v).read b = if b = a then v else m.read b := by
  induction m with
  | nil =>
    simp only [Memory.write]
    by_cases hv : v = unlistedByte <;> by_cases hb : b = a <;> simp [hv, hb, Memory.read]
  | cons d m ih =>
    obtain ⟨c, u⟩ := d
    obtain ⟨-, hc, hm⟩ := (Memory.wf_cons c u m).1 h
    by_cases hba : b = a
    · subst hba
      simp only [Memory.write, if_true]
      split_ifs with h1 hv h2 hv
      · rw [hv, Memory.read_cons, if_neg (by omega)]
        exact Memory.read_of_lt fun x hx => Nat.lt_trans h1 (hc x hx)
      · rw [Memory.read_cons, if_pos rfl]
      · rw [hv, h2]; exact Memory.read_of_lt hc
      · rw [Memory.read_cons, if_pos rfl]
      · rw [Memory.read_cons, if_neg h2, ih hm, if_pos rfl]
    · simp only [Memory.write, if_neg hba]
      split_ifs with h1 hv h2 hv
      · rfl
      · rw [Memory.read_cons, if_neg hba]
      · rw [Memory.read_cons, if_neg (h2 ▸ hba)]
      · rw [Memory.read_cons, if_neg hba, Memory.read_cons, if_neg (h2 ▸ hba)]
      · rw [Memory.read_cons, Memory.read_cons, ih hm, if_neg hba]

theorem Memory.read_write_same {m : Memory} (h : m.wf = true) (a : Nat) (v : Byte) : (m.write a v).read a = v := by
  rw [Memory.read_write h, if_pos rfl]

theorem Memory.read_write_of_ne {m : Memory} (h : m.wf = true) {a b : Nat} (v : Byte) (hb : b ≠ a) :
    (m.write a v).read b = m.read b := by
  rw [Memory.read_write h, if_neg hb]

/-- A fold of writes, each chosen from an entry of a list, keeps the canonical form. -/
theorem Memory.wf_foldl {α : Type} (f : Memory → α → Memory) (hf : ∀ m x, m.wf = true → (f m x).wf = true)
    (xs : List α) {m : Memory} (h : m.wf = true) : (xs.foldl f m).wf = true := by
  induction xs generalizing m with
  | nil => exact h
  | cons x xs ih => exact ih (hf m x h)

theorem Memory.wf_ofCells (cells : List Host.Cell) : (Memory.ofCells cells).wf = true :=
  Memory.wf_foldl _ (fun _ c h => Memory.wf_write h c.1 c.2) cells rfl

/-- A fold of writes keeps a byte that no entry names. -/
theorem Memory.read_foldl_of_not_listed {cells : List Host.Cell} {m : Memory} (h : m.wf = true) {o : Nat}
    (ho : ∀ u, (o, u) ∉ cells) : Memory.read (cells.foldl (fun m c => m.write c.1 c.2) m) o = m.read o := by
  induction cells generalizing m with
  | nil => rfl
  | cons c cells ih =>
    rw [List.foldl_cons, ih (Memory.wf_write h _ _) fun u hu => ho u (List.mem_cons_of_mem _ hu)]
    exact Memory.read_write_of_ne h _ fun e => ho c.2 (by simp [e])

/-- A window built from cells reads as the last cell at an offset. -/
theorem Memory.read_ofCells_last {xs ys : List Host.Cell} {o : Nat} {v : Byte} (h : ∀ u, (o, u) ∉ ys) :
    (Memory.ofCells (xs ++ (o, v) :: ys)).read o = v := by
  have hx := Memory.wf_ofCells xs
  simp only [Memory.ofCells, List.foldl_append, List.foldl_cons] at hx ⊢
  exact (Memory.read_foldl_of_not_listed (Memory.wf_write hx _ _) h).trans (Memory.read_write_same hx _ _)

/-- An offset of no cell reads as unlisted. -/
theorem Memory.read_ofCells_other {cells : List Host.Cell} {o : Nat} (h : ∀ u, (o, u) ∉ cells) :
    (Memory.ofCells cells).read o = unlistedByte :=
  Memory.read_foldl_of_not_listed rfl h

end Sys2Proof.Machine
end

