-- ==== Sys2Proof/Laws/State.lean ====
section
/-! SUPPORT. What each named update of the state does to each field. -/

namespace Sys2Proof.Machine

/-! ### The end of a request -/

@[simp] theorem State.endRequest_src (o : RequestOutcome) (s : State) :
    (s.endRequest o).src = s.src := rfl

@[simp] theorem State.endRequest_dst (o : RequestOutcome) (s : State) :
    (s.endRequest o).dst = s.dst := rfl

@[simp] theorem State.endRequest_cmd (o : RequestOutcome) (s : State) :
    (s.endRequest o).cmd = s.cmd := rfl

@[simp] theorem State.endRequest_srcLen (o : RequestOutcome) (s : State) :
    (s.endRequest o).srcLen = s.srcLen := rfl

@[simp] theorem State.endRequest_dstLen (o : RequestOutcome) (s : State) :
    (s.endRequest o).dstLen = s.dstLen := rfl

@[simp] theorem State.endRequest_status (o : RequestOutcome) (s : State) :
    (s.endRequest o).status = recordOutcome o s.status := rfl

@[simp] theorem State.endRequest_datapath (o : RequestOutcome) (s : State) :
    (s.endRequest o).datapath = Config.freeDatapath s.draws := rfl

@[simp] theorem State.endRequest_inProgress (o : RequestOutcome) (s : State) :
    (s.endRequest o).inProgress = false := rfl

@[simp] theorem State.endRequest_cfg (o : RequestOutcome) (s : State) :
    (s.endRequest o).cfg = s.cfg := rfl

@[simp] theorem State.endRequest_events (o : RequestOutcome) (s : State) :
    (s.endRequest o).events = s.events := rfl

@[simp] theorem State.endRequest_draws (o : RequestOutcome) (s : State) :
    (s.endRequest o).draws = s.draws + 1 := rfl

/-! ### A destination window with unspecified bytes -/

@[simp] theorem State.scrambleDst_src (s : State) :
    (s.scrambleDst).src = s.src := rfl

@[simp] theorem State.scrambleDst_cmd (s : State) :
    (s.scrambleDst).cmd = s.cmd := rfl

@[simp] theorem State.scrambleDst_srcLen (s : State) :
    (s.scrambleDst).srcLen = s.srcLen := rfl

@[simp] theorem State.scrambleDst_dstLen (s : State) :
    (s.scrambleDst).dstLen = s.dstLen := rfl

@[simp] theorem State.scrambleDst_status (s : State) :
    (s.scrambleDst).status = s.status := rfl

@[simp] theorem State.scrambleDst_datapath (s : State) :
    (s.scrambleDst).datapath = s.datapath := rfl

@[simp] theorem State.scrambleDst_inProgress (s : State) :
    (s.scrambleDst).inProgress = s.inProgress := rfl

@[simp] theorem State.scrambleDst_cfg (s : State) :
    (s.scrambleDst).cfg = s.cfg := rfl

@[simp] theorem State.scrambleDst_events (s : State) :
    (s.scrambleDst).events = s.events := rfl

@[simp] theorem State.scrambleDst_draws (s : State) :
    (s.scrambleDst).draws = s.draws := rfl

/-! ### The three outcomes -/

@[simp] theorem State.endFault_src (c : FaultCause) (s : State) :
    (s.endFault c).src = s.src := rfl

@[simp] theorem State.endFault_dst (c : FaultCause) (s : State) :
    (s.endFault c).dst = s.scrambleDst.dst := rfl

@[simp] theorem State.endFault_cmd (c : FaultCause) (s : State) :
    (s.endFault c).cmd = s.cmd := rfl

@[simp] theorem State.endFault_srcLen (c : FaultCause) (s : State) :
    (s.endFault c).srcLen = s.srcLen := rfl

@[simp] theorem State.endFault_dstLen (c : FaultCause) (s : State) :
    (s.endFault c).dstLen = s.dstLen := rfl

@[simp] theorem State.endFault_status (c : FaultCause) (s : State) :
    (s.endFault c).status = recordOutcome (.fault c) s.status := rfl

@[simp] theorem State.endFault_datapath (c : FaultCause) (s : State) :
    (s.endFault c).datapath = Config.freeDatapath s.draws := rfl

@[simp] theorem State.endFault_inProgress (c : FaultCause) (s : State) :
    (s.endFault c).inProgress = false := rfl

@[simp] theorem State.endFault_cfg (c : FaultCause) (s : State) :
    (s.endFault c).cfg = s.cfg := rfl

@[simp] theorem State.endFault_events (c : FaultCause) (s : State) :
    (s.endFault c).events = s.events := rfl

@[simp] theorem State.endFault_draws (c : FaultCause) (s : State) :
    (s.endFault c).draws = s.draws + 1 := rfl

@[simp] theorem State.endRefused_src (r : RefuseReason) (s : State) :
    (s.endRefused r).src = s.src := rfl

@[simp] theorem State.endRefused_dst (r : RefuseReason) (s : State) :
    (s.endRefused r).dst = s.dst := rfl

@[simp] theorem State.endRefused_cmd (r : RefuseReason) (s : State) :
    (s.endRefused r).cmd = s.cmd := rfl

@[simp] theorem State.endRefused_srcLen (r : RefuseReason) (s : State) :
    (s.endRefused r).srcLen = s.srcLen := rfl

@[simp] theorem State.endRefused_dstLen (r : RefuseReason) (s : State) :
    (s.endRefused r).dstLen = s.dstLen := rfl

@[simp] theorem State.endRefused_status (r : RefuseReason) (s : State) :
    (s.endRefused r).status = recordOutcome (.refused r) s.status := rfl

@[simp] theorem State.endRefused_datapath (r : RefuseReason) (s : State) :
    (s.endRefused r).datapath = Config.freeDatapath s.draws := rfl

@[simp] theorem State.endRefused_inProgress (r : RefuseReason) (s : State) :
    (s.endRefused r).inProgress = false := rfl

@[simp] theorem State.endRefused_cfg (r : RefuseReason) (s : State) :
    (s.endRefused r).cfg = s.cfg := rfl

@[simp] theorem State.endRefused_events (r : RefuseReason) (s : State) :
    (s.endRefused r).events = s.events := rfl

@[simp] theorem State.endRefused_draws (r : RefuseReason) (s : State) :
    (s.endRefused r).draws = s.draws + 1 := rfl

@[simp] theorem State.endDone_src (wl : WriteList) (s : State) :
    (s.endDone wl).src = s.src := rfl

@[simp] theorem State.endDone_dst (wl : WriteList) (s : State) :
    (s.endDone wl).dst = commit s.cfg.writeOrder s.draws wl s.dst := rfl

@[simp] theorem State.endDone_cmd (wl : WriteList) (s : State) :
    (s.endDone wl).cmd = s.cmd := rfl

@[simp] theorem State.endDone_srcLen (wl : WriteList) (s : State) :
    (s.endDone wl).srcLen = s.srcLen := rfl

@[simp] theorem State.endDone_dstLen (wl : WriteList) (s : State) :
    (s.endDone wl).dstLen = s.dstLen := rfl

@[simp] theorem State.endDone_status (wl : WriteList) (s : State) :
    (s.endDone wl).status = recordOutcome .done s.status := rfl

@[simp] theorem State.endDone_datapath (wl : WriteList) (s : State) :
    (s.endDone wl).datapath = Config.freeDatapath s.draws := rfl

@[simp] theorem State.endDone_inProgress (wl : WriteList) (s : State) :
    (s.endDone wl).inProgress = false := rfl

@[simp] theorem State.endDone_cfg (wl : WriteList) (s : State) :
    (s.endDone wl).cfg = s.cfg := rfl

@[simp] theorem State.endDone_events (wl : WriteList) (s : State) :
    (s.endDone wl).events = s.events := rfl

@[simp] theorem State.endDone_draws (wl : WriteList) (s : State) :
    (s.endDone wl).draws = s.draws + 1 := rfl

/-! ### The host's events -/

@[simp] theorem State.takeEvent_loadSource_src (cells : List Host.Cell) (s : State) :
    (s.takeEvent (.loadSource cells)).src = Memory.ofCells cells := rfl

@[simp] theorem State.takeEvent_loadSource_dst (cells : List Host.Cell) (s : State) :
    (s.takeEvent (.loadSource cells)).dst = s.dst := rfl

@[simp] theorem State.takeEvent_loadSource_cmd (cells : List Host.Cell) (s : State) :
    (s.takeEvent (.loadSource cells)).cmd = s.cmd := rfl

@[simp] theorem State.takeEvent_loadSource_srcLen (cells : List Host.Cell) (s : State) :
    (s.takeEvent (.loadSource cells)).srcLen = s.srcLen := rfl

@[simp] theorem State.takeEvent_loadSource_dstLen (cells : List Host.Cell) (s : State) :
    (s.takeEvent (.loadSource cells)).dstLen = s.dstLen := rfl

@[simp] theorem State.takeEvent_loadSource_status (cells : List Host.Cell) (s : State) :
    (s.takeEvent (.loadSource cells)).status = s.status := rfl

@[simp] theorem State.takeEvent_loadSource_datapath (cells : List Host.Cell) (s : State) :
    (s.takeEvent (.loadSource cells)).datapath = s.datapath := rfl

@[simp] theorem State.takeEvent_loadSource_inProgress (cells : List Host.Cell) (s : State) :
    (s.takeEvent (.loadSource cells)).inProgress = s.inProgress := rfl

@[simp] theorem State.takeEvent_loadSource_cfg (cells : List Host.Cell) (s : State) :
    (s.takeEvent (.loadSource cells)).cfg = s.cfg := rfl

@[simp] theorem State.takeEvent_loadSource_events (cells : List Host.Cell) (s : State) :
    (s.takeEvent (.loadSource cells)).events = s.events := rfl

@[simp] theorem State.takeEvent_loadSource_draws (cells : List Host.Cell) (s : State) :
    (s.takeEvent (.loadSource cells)).draws = s.draws := rfl

@[simp] theorem State.takeEvent_loadDest_src (cells : List Host.Cell) (s : State) :
    (s.takeEvent (.loadDest cells)).src = s.src := rfl

@[simp] theorem State.takeEvent_loadDest_dst (cells : List Host.Cell) (s : State) :
    (s.takeEvent (.loadDest cells)).dst = Memory.ofCells cells := rfl

@[simp] theorem State.takeEvent_loadDest_cmd (cells : List Host.Cell) (s : State) :
    (s.takeEvent (.loadDest cells)).cmd = s.cmd := rfl

@[simp] theorem State.takeEvent_loadDest_srcLen (cells : List Host.Cell) (s : State) :
    (s.takeEvent (.loadDest cells)).srcLen = s.srcLen := rfl

@[simp] theorem State.takeEvent_loadDest_dstLen (cells : List Host.Cell) (s : State) :
    (s.takeEvent (.loadDest cells)).dstLen = s.dstLen := rfl

@[simp] theorem State.takeEvent_loadDest_status (cells : List Host.Cell) (s : State) :
    (s.takeEvent (.loadDest cells)).status = s.status := rfl

@[simp] theorem State.takeEvent_loadDest_datapath (cells : List Host.Cell) (s : State) :
    (s.takeEvent (.loadDest cells)).datapath = s.datapath := rfl

@[simp] theorem State.takeEvent_loadDest_inProgress (cells : List Host.Cell) (s : State) :
    (s.takeEvent (.loadDest cells)).inProgress = s.inProgress := rfl

@[simp] theorem State.takeEvent_loadDest_cfg (cells : List Host.Cell) (s : State) :
    (s.takeEvent (.loadDest cells)).cfg = s.cfg := rfl

@[simp] theorem State.takeEvent_loadDest_events (cells : List Host.Cell) (s : State) :
    (s.takeEvent (.loadDest cells)).events = s.events := rfl

@[simp] theorem State.takeEvent_loadDest_draws (cells : List Host.Cell) (s : State) :
    (s.takeEvent (.loadDest cells)).draws = s.draws := rfl

@[simp] theorem State.takeEvent_request_src (c : BitVec 64) (a b : Nat) (s : State) :
    (s.takeEvent (.request c a b)).src = s.src := rfl

@[simp] theorem State.takeEvent_request_dst (c : BitVec 64) (a b : Nat) (s : State) :
    (s.takeEvent (.request c a b)).dst = s.dst := rfl

@[simp] theorem State.takeEvent_request_cmd (c : BitVec 64) (a b : Nat) (s : State) :
    (s.takeEvent (.request c a b)).cmd = c := rfl

@[simp] theorem State.takeEvent_request_srcLen (c : BitVec 64) (a b : Nat) (s : State) :
    (s.takeEvent (.request c a b)).srcLen = truncLen s.cfg a := rfl

@[simp] theorem State.takeEvent_request_dstLen (c : BitVec 64) (a b : Nat) (s : State) :
    (s.takeEvent (.request c a b)).dstLen = truncLen s.cfg b := rfl

@[simp] theorem State.takeEvent_request_status (c : BitVec 64) (a b : Nat) (s : State) :
    (s.takeEvent (.request c a b)).status = s.status := rfl

@[simp] theorem State.takeEvent_request_datapath (c : BitVec 64) (a b : Nat) (s : State) :
    (s.takeEvent (.request c a b)).datapath = s.datapath := rfl

@[simp] theorem State.takeEvent_request_inProgress (c : BitVec 64) (a b : Nat) (s : State) :
    (s.takeEvent (.request c a b)).inProgress = true := rfl

@[simp] theorem State.takeEvent_request_cfg (c : BitVec 64) (a b : Nat) (s : State) :
    (s.takeEvent (.request c a b)).cfg = s.cfg := rfl

@[simp] theorem State.takeEvent_request_events (c : BitVec 64) (a b : Nat) (s : State) :
    (s.takeEvent (.request c a b)).events = s.events := rfl

@[simp] theorem State.takeEvent_request_draws (c : BitVec 64) (a b : Nat) (s : State) :
    (s.takeEvent (.request c a b)).draws = s.draws := rfl

@[simp] theorem State.takeEvent_reset (s : State) : s.takeEvent .reset = s.applyReset := rfl

/-! ### The fetched word -/

@[simp] theorem State.withFetchWord_src (s : State) (nbits w : Nat) :
    (s.withFetchWord nbits w).src = s.src := rfl

@[simp] theorem State.withFetchWord_dst (s : State) (nbits w : Nat) :
    (s.withFetchWord nbits w).dst = s.dst := rfl

@[simp] theorem State.withFetchWord_cmd (s : State) (nbits w : Nat) :
    (s.withFetchWord nbits w).cmd = BitVec.ofNat 64 (w % 2 ^ nbits) := rfl

@[simp] theorem State.withFetchWord_srcLen (s : State) (nbits w : Nat) :
    (s.withFetchWord nbits w).srcLen = s.srcLen := rfl

@[simp] theorem State.withFetchWord_dstLen (s : State) (nbits w : Nat) :
    (s.withFetchWord nbits w).dstLen = s.dstLen := rfl

@[simp] theorem State.withFetchWord_status (s : State) (nbits w : Nat) :
    (s.withFetchWord nbits w).status = s.status := rfl

@[simp] theorem State.withFetchWord_datapath (s : State) (nbits w : Nat) :
    (s.withFetchWord nbits w).datapath = s.datapath := rfl

@[simp] theorem State.withFetchWord_inProgress (s : State) (nbits w : Nat) :
    (s.withFetchWord nbits w).inProgress = true := rfl

@[simp] theorem State.withFetchWord_cfg (s : State) (nbits w : Nat) :
    (s.withFetchWord nbits w).cfg = s.cfg := rfl

@[simp] theorem State.withFetchWord_events (s : State) (nbits w : Nat) :
    (s.withFetchWord nbits w).events = s.events.dropWhile HostEvent.isReset := rfl

@[simp] theorem State.withFetchWord_draws (s : State) (nbits w : Nat) :
    (s.withFetchWord nbits w).draws = s.draws := rfl

/-! ### Reset -/

theorem State.applyReset_of_idle {s : State} (h : s.inProgress = false) :
    s.applyReset =
      { s with
        status := 0
        cmd := Config.freeCmd s.draws
        srcLen := truncLen s.cfg (Config.freeSrcLen s.draws)
        dstLen := truncLen s.cfg (Config.freeDstLen s.draws)
        datapath := Config.freeDatapath s.draws
        inProgress := false
        draws := s.draws + 1 } := by
  simp [State.applyReset, h]

@[simp] theorem State.applyReset_src (s : State) :
    s.applyReset.src = s.src := by
  cases h : s.inProgress <;> simp [State.applyReset, h]

@[simp] theorem State.applyReset_dst (s : State) :
    s.applyReset.dst = (if s.inProgress then s.scrambleDst.dst else s.dst) := by
  cases h : s.inProgress <;> simp [State.applyReset, h]

@[simp] theorem State.applyReset_cmd (s : State) :
    s.applyReset.cmd = Config.freeCmd s.draws := rfl

@[simp] theorem State.applyReset_srcLen (s : State) :
    s.applyReset.srcLen = truncLen s.cfg (Config.freeSrcLen s.draws) := rfl

@[simp] theorem State.applyReset_dstLen (s : State) :
    s.applyReset.dstLen = truncLen s.cfg (Config.freeDstLen s.draws) := rfl

@[simp] theorem State.applyReset_status (s : State) :
    s.applyReset.status = 0 := rfl

@[simp] theorem State.applyReset_datapath (s : State) :
    s.applyReset.datapath = Config.freeDatapath s.draws := rfl

@[simp] theorem State.applyReset_inProgress (s : State) :
    s.applyReset.inProgress = false := rfl

@[simp] theorem State.applyReset_cfg (s : State) :
    s.applyReset.cfg = s.cfg := by
  cases h : s.inProgress <;> simp [State.applyReset, h]

@[simp] theorem State.applyReset_events (s : State) :
    s.applyReset.events = s.events := by
  cases h : s.inProgress <;> simp [State.applyReset, h]

@[simp] theorem State.applyReset_draws (s : State) :
    s.applyReset.draws = s.draws + 1 := rfl

end Sys2Proof.Machine
end

