-- ==== Sys2Proof/Laws/Ops.lean ====
section
/-! SUPPORT. One lemma per shared operation: what it answers and everything it can do. -/

namespace Sys2Proof.Machine

/-! ### The value an offset ends with (R45) -/

theorem mem_valuesAt {wl : WriteList} {o : Nat} {v : Byte} : v ∈ valuesAt wl o ↔ (o, v) ∈ wl := by
  simp only [valuesAt, List.mem_filterMap]
  constructor
  · rintro ⟨⟨a, u⟩, h, e⟩
    simp only at e
    split_ifs at e with ha
    · obtain rfl := Option.some.inj e; subst ha; exact h
  · intro h; exact ⟨(o, v), h, by simp⟩

theorem valuesAt_append (wl wl' : WriteList) (o : Nat) :
    valuesAt (wl ++ wl') o = valuesAt wl o ++ valuesAt wl' o := by
  simp [valuesAt]

theorem valuesAt_flatMap {α : Type} (f : α → WriteList) (xs : List α) (o : Nat) :
    valuesAt (xs.flatMap f) o = xs.flatMap fun x => valuesAt (f x) o := by
  induction xs with
  | nil => rfl
  | cons x xs ih => simp only [List.flatMap_cons, valuesAt_append, ih]

theorem chosenValue_nil (order : WriteOrder) (draw o : Nat) : chosenValue order draw o [] = none := rfl

/-- The chosen value is one of the values. -/
theorem chosenValue_mem {order : WriteOrder} {draw o : Nat} {vs : List Byte} {v : Byte}
    (h : chosenValue order draw o vs = some v) : v ∈ vs := by
  match vs, order with
  | [], _ => simp [chosenValue] at h
  | [u], _ => simp [chosenValue] at h; simp [h]
  | u :: u' :: us, .reference =>
    simp only [chosenValue, Option.some.injEq] at h
    subst h
    rw [List.getLastD_eq_getLast?, List.getLast?_eq_some_getLast (by simp), Option.getD_some]
    exact List.mem_cons_of_mem _ (List.getLast_mem _)
  | u :: u' :: us, .unspecified =>
    simp only [chosenValue, Option.some.injEq] at h
    subst h
    have hlt : Config.chooseIndex draw o % ((u' :: us).length + 1) < (u :: u' :: us).length := by
      simpa using Nat.mod_lt _ (Nat.succ_pos _)
    rw [List.getD_eq_getElem _ _ hlt]
    exact List.getElem_mem hlt

/-- Where there is a value, one is chosen. -/
theorem chosenValue_isSome {vs : List Byte} (order : WriteOrder) (draw o : Nat) (h : vs ≠ []) :
    ∃ v, chosenValue order draw o vs = some v := by
  match vs, order with
  | [], _ => exact absurd rfl h
  | [u], _ => exact ⟨u, rfl⟩
  | u :: u' :: us, .reference => exact ⟨_, rfl⟩
  | u :: u' :: us, .unspecified => exact ⟨_, rfl⟩

/-- Under `REFERENCE` the last value wins. -/
theorem chosenValue_reference (draw o : Nat) (vs : List Byte) :
    chosenValue .reference draw o vs = vs.getLast? := by
  match vs with
  | [] => rfl
  | [u] => rfl
  | u :: u' :: us => simp [chosenValue, List.getLast?_cons]

/-- Where all values agree, that value is chosen, whatever the order of writes. -/
theorem chosenValue_of_forall {order : WriteOrder} {draw o : Nat} {vs : List Byte} {v : Byte} (hne : vs ≠ [])
    (h : ∀ u ∈ vs, u = v) : chosenValue order draw o vs = some v := by
  obtain ⟨u, hu⟩ := chosenValue_isSome order draw o hne
  rw [hu, h u (chosenValue_mem hu)]

/-! ### The commit (R45, R46) -/

theorem Memory.wf_put {m : Memory} (h : m.wf = true) (a : Nat) (v : Option Byte) : (m.put a v).wf = true := by
  cases v with
  | none => exact h
  | some v => exact Memory.wf_write h a v

theorem Memory.read_put {m : Memory} (h : m.wf = true) (a : Nat) (v : Option Byte) (b : Nat) :
    (m.put a v).read b = if b = a then v.getD (m.read b) else m.read b := by
  cases v with
  | none => simp [Memory.put]
  | some v => exact Memory.read_write h a v b

theorem read_foldl_put (g : Nat → Option Byte) (xs : WriteList) (o : Nat) {m : Memory} (h : m.wf = true) :
    Memory.read (xs.foldl (fun m c => m.put c.1 (g c.1)) m) o =
      if (∃ c ∈ xs, c.1 = o) then (g o).getD (m.read o) else m.read o := by
  induction xs generalizing m with
  | nil => simp
  | cons x xs ih =>
    rw [List.foldl_cons, ih (Memory.wf_put h _ _), Memory.read_put h]
    by_cases hx : o = x.1
    · subst hx; cases g x.1 <;> simp
    · simp [hx, Ne.symm hx]

theorem wf_commit (order : WriteOrder) (draw : Nat) (wl : WriteList) {m : Memory} (h : m.wf = true) :
    (commit order draw wl m).wf = true :=
  Memory.wf_foldl _ (fun _ _ hm => Memory.wf_put hm _ _) wl h

/-- Everything a commit does: an offset in the write list reads as its chosen value, every other one as before. -/
theorem read_commit (order : WriteOrder) (draw : Nat) (wl : WriteList) {m : Memory} (h : m.wf = true) (o : Nat) :
    (commit order draw wl m).read o = (chosenValue order draw o (valuesAt wl o)).getD (m.read o) := by
  rw [commit, read_foldl_put (fun o => chosenValue order draw o (valuesAt wl o)) wl o h]
  split_ifs with hex
  · rfl
  · have hnil : valuesAt wl o = [] := by
      rw [List.eq_nil_iff_forall_not_mem]
      intro v hv
      exact hex ⟨(o, v), mem_valuesAt.1 hv, rfl⟩
    rw [hnil, chosenValue_nil, Option.getD_none]

theorem read_commit_of_not_written (order : WriteOrder) (draw : Nat) {wl : WriteList} {m : Memory} (h : m.wf = true)
    {o : Nat} (ho : ∀ v, (o, v) ∉ wl) : (commit order draw wl m).read o = m.read o := by
  have hnil : valuesAt wl o = [] := List.eq_nil_iff_forall_not_mem.2 fun v hv => ho v (mem_valuesAt.1 hv)
  rw [read_commit order draw wl h, hnil]; rfl

theorem read_commit_mem (order : WriteOrder) (draw : Nat) {wl : WriteList} {m : Memory} (h : m.wf = true)
    {o : Nat} {v : Byte} (hv : (o, v) ∈ wl) : (o, (commit order draw wl m).read o) ∈ wl := by
  obtain ⟨u, hu⟩ := chosenValue_isSome order draw o (List.ne_nil_of_mem (mem_valuesAt.2 hv))
  rw [read_commit order draw wl h, hu, Option.getD_some]
  exact mem_valuesAt.1 (chosenValue_mem hu)

theorem read_commit_unique (order : WriteOrder) (draw : Nat) {wl : WriteList} {m : Memory} (h : m.wf = true)
    {o : Nat} {v : Byte} (hv : (o, v) ∈ wl) (hu : ∀ u, (o, u) ∈ wl → u = v) :
    (commit order draw wl m).read o = v :=
  hu _ (read_commit_mem order draw h hv)

/-- The last value at an offset in a list that items emit in order: the last value of an item there, when no later item
writes there (R45). -/
theorem getLast_valuesAt_flatMap {α : Type} {after : α → α → Prop} {f : α → WriteList} {xs : List α}
    (hord : xs.Pairwise after) {x : α} (hx : x ∈ xs) {o : Nat} {v : Byte}
    (hv : (valuesAt (f x) o).getLast? = some v) (hlater : ∀ y ∈ xs, after x y → ∀ u, (o, u) ∉ f y) :
    (valuesAt (xs.flatMap f) o).getLast? = some v := by
  obtain ⟨as, bs, rfl⟩ := List.append_of_mem hx
  rw [List.pairwise_append] at hord
  have hbs : valuesAt (bs.flatMap f) o = [] := by
    refine List.eq_nil_iff_forall_not_mem.2 fun u hu => ?_
    obtain ⟨y, hy, hmem⟩ := List.mem_flatMap.1 (mem_valuesAt.1 hu)
    exact hlater y (by simp [hy]) ((List.pairwise_cons.1 hord.2.1).1 y hy) u hmem
  rw [List.flatMap_append, List.flatMap_cons, valuesAt_append, valuesAt_append, hbs, List.append_nil,
    List.getLast?_append, hv]
  rfl

/-- The last value at an offset where a list writes one value. -/
theorem getLast_valuesAt_unique {wl : WriteList} {o : Nat} {v : Byte} (hv : (o, v) ∈ wl)
    (hu : ∀ u, (o, u) ∈ wl → u = v) : (valuesAt wl o).getLast? = some v := by
  have hne := List.ne_nil_of_mem (mem_valuesAt.2 hv)
  rw [List.getLast?_eq_getLast_of_ne_nil hne]
  exact congrArg some (hu _ (mem_valuesAt.1 (List.getLast_mem hne)))

/-! ### Unspecified destination bytes (R166) -/

theorem wf_scrambleDst {s : State} (h : s.dst.wf = true) : s.scrambleDst.dst.wf = true :=
  Memory.wf_foldl _ (fun _ o hm => Memory.wf_write hm o _) _ h

theorem read_foldl_write (f : Nat → Byte) (xs : List Nat) (o : Nat) {m : Memory} (h : m.wf = true) :
    Memory.read (xs.foldl (fun m o => m.write o (f o)) m) o = if o ∈ xs then f o else m.read o := by
  induction xs generalizing m with
  | nil => simp
  | cons x xs ih =>
    rw [List.foldl_cons, ih (Memory.wf_write h _ _), Memory.read_write h]
    by_cases hx : o = x
    · subst hx; simp
    · simp [hx]

/-- Below `DST_LEN` a free byte, at and above it the old byte. -/
theorem read_scrambleDst {s : State} (h : s.dst.wf = true) (o : Nat) :
    s.scrambleDst.dst.read o = if o < s.dstLen then Config.freeByte s.draws o else s.dst.read o := by
  simp only [State.scrambleDst, read_foldl_write _ _ _ h, List.mem_range]

/-! ### The frame of a request (R66) -/

/-- The state a request ends in does not keep the tables its loop built. -/
theorem endDone_datapath (s : State) (d : Datapath) (wl : WriteList) :
    ({ s with datapath := d } : State).endDone wl = s.endDone wl := rfl

/-- Everything a request can do: one of the three faults, or the commit of its write list. -/
theorem runRequest_cases (srcReq dstReq : Nat) (writes : State → Except FaultCause (Datapath × WriteList)) (s : State) :
    (s.srcLen < srcReq ∧ s.runRequest srcReq dstReq writes = .next (s.endFault .srcRange)) ∨
    (srcReq ≤ s.srcLen ∧ s.dstLen < dstReq ∧ s.runRequest srcReq dstReq writes = .next (s.endFault .dstRange)) ∨
    (srcReq ≤ s.srcLen ∧ dstReq ≤ s.dstLen ∧ ∃ c, writes s = .error c ∧
      s.runRequest srcReq dstReq writes = .next (s.endFault c)) ∨
    (srcReq ≤ s.srcLen ∧ dstReq ≤ s.dstLen ∧ ∃ d wl, writes s = .ok (d, wl) ∧ (∃ c ∈ wl, s.dstLen ≤ c.1) ∧
      s.runRequest srcReq dstReq writes = .next (s.endFault .dstRange)) ∨
    (srcReq ≤ s.srcLen ∧ dstReq ≤ s.dstLen ∧ ∃ d wl, writes s = .ok (d, wl) ∧ (∀ c ∈ wl, c.1 < s.dstLen) ∧
      s.runRequest srcReq dstReq writes = .next (s.endDone wl)) := by
  unfold State.runRequest
  by_cases h1 : s.srcLen < srcReq
  · exact .inl ⟨h1, if_pos h1⟩
  by_cases h2 : s.dstLen < dstReq
  · exact .inr (.inl ⟨Nat.le_of_not_lt h1, h2, by rw [if_neg h1, if_pos h2]⟩)
  rw [if_neg h1, if_neg h2]
  have h1 := Nat.le_of_not_lt h1
  have h2 := Nat.le_of_not_lt h2
  cases hw : writes s with
  | error c => exact .inr (.inr (.inl ⟨h1, h2, c, rfl, rfl⟩))
  | ok p =>
    obtain ⟨d, wl⟩ := p
    by_cases hout : ∃ c ∈ wl, s.dstLen ≤ c.1
    · refine .inr (.inr (.inr (.inl ⟨h1, h2, d, wl, rfl, hout, ?_⟩)))
      have hany : wl.any (fun c => decide (s.dstLen ≤ c.1)) = true := by simpa using hout
      simp only [hany, if_true]
    · refine .inr (.inr (.inr (.inr ⟨h1, h2, d, wl, rfl, ?_, ?_⟩)))
      · intro c hc; exact Nat.lt_of_not_le fun hle => hout ⟨c, hc, hle⟩
      · have hany : wl.any (fun c => decide (s.dstLen ≤ c.1)) = false := by simpa using hout
        simp only [hany]; rfl

theorem runRequest_srcRange {srcReq : Nat} (dstReq : Nat) (writes : State → Except FaultCause (Datapath × WriteList))
    {s : State} (h : s.srcLen < srcReq) : s.runRequest srcReq dstReq writes = .next (s.endFault .srcRange) :=
  if_pos h

theorem runRequest_dstRange {srcReq dstReq : Nat} (writes : State → Except FaultCause (Datapath × WriteList))
    {s : State} (hs : srcReq ≤ s.srcLen) (hd : s.dstLen < dstReq) :
    s.runRequest srcReq dstReq writes = .next (s.endFault .dstRange) := by
  unfold State.runRequest; rw [if_neg (Nat.not_lt.2 hs), if_pos hd]

theorem runRequest_error {srcReq dstReq : Nat} {writes : State → Except FaultCause (Datapath × WriteList)}
    {s : State} {c : FaultCause} (hs : srcReq ≤ s.srcLen) (hd : dstReq ≤ s.dstLen) (hw : writes s = .error c) :
    s.runRequest srcReq dstReq writes = .next (s.endFault c) := by
  unfold State.runRequest; rw [if_neg (Nat.not_lt.2 hs), if_neg (Nat.not_lt.2 hd), hw]

/-- A request whose ranges suffice and whose write list is in range commits it and ends DONE. -/
theorem runRequest_done {srcReq dstReq : Nat} {writes : State → Except FaultCause (Datapath × WriteList)}
    {s : State} {d : Datapath} {wl : WriteList} (hs : srcReq ≤ s.srcLen) (hd : dstReq ≤ s.dstLen)
    (hw : writes s = .ok (d, wl)) (hr : ∀ c ∈ wl, c.1 < dstReq) :
    s.runRequest srcReq dstReq writes = .next (s.endDone wl) := by
  unfold State.runRequest
  rw [if_neg (Nat.not_lt.2 hs), if_neg (Nat.not_lt.2 hd), hw]
  have : ¬(wl.any (fun c => decide (s.dstLen ≤ c.1)) = true) := by
    simp only [List.any_eq_true, decide_eq_true_eq, not_exists, not_and]
    intro c hc; have := hr c hc; omega
  simp only [this]
  rfl

/-- A request always answers a next state, which ends it with some outcome. -/
theorem runRequest_next (srcReq dstReq : Nat) (writes : State → Except FaultCause (Datapath × WriteList)) (s : State) :
    (∃ c, s.runRequest srcReq dstReq writes = .next (s.endFault c)) ∨
    (∃ wl, (∀ c ∈ wl, c.1 < s.dstLen) ∧ s.runRequest srcReq dstReq writes = .next (s.endDone wl)) := by
  rcases runRequest_cases srcReq dstReq writes s with h | h | ⟨_, _, c, _, h⟩ | ⟨_, _, _, _, _, _, h⟩ | h
  · exact .inl ⟨_, h.2⟩
  · exact .inl ⟨_, h.2.2⟩
  · exact .inl ⟨c, h⟩
  · exact .inl ⟨_, h⟩
  · obtain ⟨_, _, d, wl, _, hr, h⟩ := h
    exact .inr ⟨wl, hr, h⟩

/-! ### Loops and reads -/

/-- Everything a loop can do, where each body either faults with one cause or emits a list that does not depend on the
scratch state it meets: it faults if some body does, and otherwise appends the lists in order. -/
theorem runLoop_spec {α : Type} {body : α → Datapath → Except FaultCause (Datapath × WriteList)} {bad : α → Prop}
    {out : α → WriteList} {c : FaultCause} {P : Datapath → Prop} {xs : List α}
    (h : ∀ x ∈ xs, ∀ d, P d →
      (bad x → body x d = .error c) ∧ (¬bad x → ∃ d', P d' ∧ body x d = .ok (d', out x)))
    {d : Datapath} (hd : P d) :
    ((∃ x ∈ xs, bad x) → runLoop body xs d = .error c) ∧
    ((∀ x ∈ xs, ¬bad x) → ∃ d', runLoop body xs d = .ok (d', xs.flatMap out)) := by
  induction xs generalizing d with
  | nil => exact ⟨fun ⟨_, h, _⟩ => absurd h (by simp), fun _ => ⟨d, rfl⟩⟩
  | cons x xs ih =>
    obtain ⟨hbad, hok⟩ := h x (by simp) d hd
    have htail := fun d hd => @ih (fun y hy => h y (by simp [hy])) d hd
    constructor
    · intro hex
      by_cases hx : bad x
      · simp only [runLoop, hbad hx]
      · obtain ⟨d', hP, hbody⟩ := hok hx
        have hex' : ∃ y ∈ xs, bad y := by
          obtain ⟨y, hy, hby⟩ := hex
          rcases List.mem_cons.1 hy with rfl | hy
          · exact absurd hby hx
          · exact ⟨y, hy, hby⟩
        simp only [runLoop, hbody, (htail d' hP).1 hex']
    · intro hall
      obtain ⟨d', hP, hbody⟩ := hok (hall x (by simp))
      obtain ⟨d'', hrest⟩ := (htail d' hP).2 fun y hy => hall y (by simp [hy])
      exact ⟨d'', by simp only [runLoop, hbody, hrest, List.flatMap_cons]⟩

theorem memRead_ok {s : State} {o : Nat} (h : o < s.srcLen) : s.memRead o = .ok (s.src.read o) := if_pos h

/-- Bytes inside the window are read as they stand. -/
theorem memReads_ok {s : State} {o n : Nat} (h : o + n ≤ s.srcLen) :
    s.memReads o n = .ok ((List.range n).map fun k => s.src.read (o + k)) := by
  induction n generalizing o with
  | zero => rfl
  | succ n ih =>
    rw [State.memReads, memRead_ok (by omega), ih (by omega)]
    simp only [List.range_succ_eq_map, List.map_cons, List.map_map, Nat.add_zero]
    congr 2
    exact List.map_congr_left fun k _ => by simp [Nat.add_assoc, Nat.add_comm 1]

end Sys2Proof.Machine
end

