-- ==== Sys2Proof/Laws/Packed16.lean ====
section
/-! SUPPORT. The packed-16 loop: its write list as a plain list, and what a packed-16 request answers. -/

namespace Sys2Proof.Machine

theorem mem_emit4 {o : Nat} {p : Pixel} {a : Nat} {v : Byte} :
    (a, v) ∈ emit4 o p ↔ ∃ ch < 4, a = o + ch ∧ v = pixelByte p ch := by
  constructor
  · intro h
    simp only [emit4, List.mem_cons, Prod.mk.injEq, List.not_mem_nil, or_false] at h
    rcases h with ⟨rfl, rfl⟩ | ⟨rfl, rfl⟩ | ⟨rfl, rfl⟩ | ⟨rfl, rfl⟩
    · exact ⟨0, by omega, rfl, rfl⟩
    · exact ⟨1, by omega, rfl, rfl⟩
    · exact ⟨2, by omega, rfl, rfl⟩
    · exact ⟨3, by omega, rfl, rfl⟩
  · rintro ⟨ch, hch, rfl, rfl⟩
    interval_cases ch <;> simp [emit4, pixelByte]

/-- The write list of R100, as a function of the source bytes alone. -/
def packedList (P : Byte → Byte → Pixel) (w h : Nat) (src : Memory) : WriteList :=
  (List.range (w * h)).flatMap fun i => emit4 (4 * i) (P (src.read (2 * i)) (src.read (2 * i + 1)))

theorem writeListPacked_ok {P : Byte → Byte → Pixel} {w h : Nat} {s : State} (hs : srcReqPacked w h ≤ s.srcLen) :
    ∃ d, writeListPacked P w h s = .ok (d, packedList P w h s.src) := by
  have hs : 2 * (w * h) ≤ s.srcLen := by simpa [srcReqPacked, Nat.mul_assoc] using hs
  refine (runLoop_spec (bad := fun _ => False) (c := .srcRange) (P := fun _ => True) ?_ trivial).2 (by simp)
  intro i hi d _
  have hi := List.mem_range.1 hi
  refine ⟨fun h => h.elim, fun _ => ⟨d, trivial, ?_⟩⟩
  simp only [packedPixel, memRead_ok (show 2 * i < s.srcLen by omega),
    memRead_ok (show 2 * i + 1 < s.srcLen by omega)]

theorem mem_packedList {P : Byte → Byte → Pixel} {w h : Nat} {src : Memory} {o : Nat} {v : Byte} :
    (o, v) ∈ packedList P w h src ↔ ∃ i < w * h, ∃ ch < 4, o = 4 * i + ch ∧
      v = pixelByte (P (src.read (2 * i)) (src.read (2 * i + 1))) ch := by
  simp only [packedList, List.mem_flatMap, List.mem_range, mem_emit4]

theorem packedList_lt {P : Byte → Byte → Pixel} {w h : Nat} {src : Memory} {c : Host.Cell}
    (hc : c ∈ packedList P w h src) : c.1 < dstReqPacked w h := by
  obtain ⟨i, hi, ch, hch, e, -⟩ := mem_packedList.1 (show (c.1, c.2) ∈ _ from hc)
  have : dstReqPacked w h = 4 * (w * h) := by simp [dstReqPacked, Nat.mul_assoc]
  omega

/-- What a packed-16 request answers when both ranges suffice. -/
theorem runPacked_done {P : Byte → Byte → Pixel} {w h : Nat} {s : State} (hs : srcReqPacked w h ≤ s.srcLen)
    (hd : dstReqPacked w h ≤ s.dstLen) : runPacked P w h s = .next (s.endDone (packedList P w h s.src)) := by
  obtain ⟨d, hw⟩ := writeListPacked_ok (P := P) hs
  exact runRequest_done hs hd hw fun c hc => packedList_lt hc

/-- Every pixel of a packed-16 request is written once, with its pixel function's bytes, whatever `WRITE_ORDER` (R100). -/
theorem read_packed_commit (P : Byte → Byte → Pixel) {w h : Nat} {s : State} (hwf : s.dst.wf = true) {i ch : Nat}
    (hi : i < w * h) (hch : ch < 4) :
    (s.endDone (packedList P w h s.src)).dst.read (4 * i + ch) =
      pixelByte (P (s.src.read (2 * i)) (s.src.read (2 * i + 1))) ch := by
  rw [State.endDone_dst]
  refine read_commit_unique _ _ hwf (mem_packedList.2 ⟨i, hi, ch, hch, rfl, rfl⟩) ?_
  intro u hu
  obtain ⟨i', -, ch', hch', e, rfl⟩ := mem_packedList.1 hu
  obtain rfl : i = i' := by omega
  obtain rfl : ch = ch' := by omega
  rfl

theorem read_packed_commit_above (P : Byte → Byte → Pixel) {w h : Nat} {s : State} (hwf : s.dst.wf = true) {o : Nat}
    (ho : dstReqPacked w h ≤ o) : (s.endDone (packedList P w h s.src)).dst.read o = s.dst.read o := by
  rw [State.endDone_dst]
  exact read_commit_of_not_written _ _ hwf fun v hv => absurd (packedList_lt hv) (Nat.not_lt.2 ho)

end Sys2Proof.Machine
end

