-- ==== Sys2Proof/Laws/BlockDxt.lean ====
section
/-! SUPPORT. The block engine: the tables a block builds as functions of its bytes alone (R143), the write list of each
format as a plain list, and what a DXT request answers. -/

namespace Sys2Proof.Machine

/-! ### Geometry -/

theorem mem_blockGrid {w h bX bY : Nat} : (bX, bY) ∈ blockGrid w h ↔ bX < ceil4 w ∧ bY < ceil4 h := by
  simp only [blockGrid, List.mem_flatMap, List.mem_map, List.mem_range, Prod.mk.injEq]
  constructor
  · rintro ⟨_, hy, _, hx, rfl, rfl⟩; exact ⟨hx, hy⟩
  · rintro ⟨hx, hy⟩; exact ⟨bY, hy, bX, hx, rfl, rfl⟩

theorem mem_blockPixels {x y : Nat} : (x, y) ∈ blockPixels ↔ x < 4 ∧ y < 4 := by
  simp only [blockPixels, List.mem_flatMap, List.mem_map, List.mem_range, Prod.mk.injEq]
  constructor
  · rintro ⟨_, hy, _, hx, rfl, rfl⟩; exact ⟨hx, hy⟩
  · rintro ⟨hx, hy⟩; exact ⟨y, hy, x, hx, rfl, rfl⟩

theorem blockIndex_lt {w h bX bY : Nat} (hx : bX < ceil4 w) (hy : bY < ceil4 h) :
    blockIndex w bX bY < ceil4 w * ceil4 h := by
  have h1 : (bY + 1) * ceil4 w ≤ ceil4 h * ceil4 w := Nat.mul_le_mul_right _ hy
  have h2 : (bY + 1) * ceil4 w = bY * ceil4 w + ceil4 w := Nat.succ_mul ..
  rw [Nat.mul_comm (ceil4 w)]
  unfold blockIndex
  omega

theorem pos_of_block {w h bX bY : Nat} (hx : bX < ceil4 w) (hy : bY < ceil4 h) : w ≠ 0 ∧ h ≠ 0 := by
  unfold ceil4 at hx hy; omega

/-- Every offset of a block pixel is below `DstReq` (R163). -/
theorem doff_lt {w h bX bY x y ch : Nat} (hbx : bX < ceil4 w) (hby : bY < ceil4 h) (hx : x < 4) (hy : y < 4)
    (hch : ch < 4) : doff w bX bY x y + ch < dstReqDxt w h := by
  obtain ⟨hw, hh⟩ := pos_of_block hbx hby
  have h1 : w * (4 * bY + y) ≤ w * (4 * ceil4 h - 1) := Nat.mul_le_mul_left _ (by omega)
  simp only [doff, dstReqDxt, hw, hh, or_self, if_false]
  omega

/-- With `W` a multiple of 4, no two block pixels share an offset (R46, R184). -/
theorem doff_inj {w bX bY x y ch bX' bY' x' y' ch' : Nat} (hw : w % 4 = 0) (hbx : bX < ceil4 w) (hbx' : bX' < ceil4 w)
    (hx : x < 4) (hx' : x' < 4) (hy : y < 4) (hy' : y' < 4) (hch : ch < 4) (hch' : ch' < 4)
    (e : doff w bX bY x y + ch = doff w bX' bY' x' y' + ch') :
    bX = bX' ∧ bY = bY' ∧ x = x' ∧ y = y' ∧ ch = ch' := by
  simp only [doff, ceil4] at *
  have e1 : w * (4 * bY + y) + (4 * bX + x) = w * (4 * bY' + y') + (4 * bX' + x') := by omega
  have hX : 4 * bX + x < w := by omega
  have hX' : 4 * bX' + x' < w := by omega
  have hY : 4 * bY + y = 4 * bY' + y' := by
    have h1 := congrArg (· / w) e1
    simpa [Nat.mul_add_div (Nat.zero_lt_of_lt hX), Nat.div_eq_of_lt hX, Nat.div_eq_of_lt hX'] using h1
  rw [hY] at e1
  omega

/-! ### Blocks of the source window -/

/-- The `n` bytes of block `k` (R122). -/
def sourceBlock (src : Memory) (n k : Nat) : List Byte := (List.range n).map fun i => src.read (n * k + i)

theorem blockByte_sourceBlock (src : Memory) {n k i : Nat} (hi : i < n) :
    blockByte (sourceBlock src n k) i = src.read (n * k + i) := by
  simp [blockByte, sourceBlock, hi]

theorem memReads_block {s : State} {n w h bX bY : Nat} (hs : n * ceil4 w * ceil4 h ≤ s.srcLen) (hx : bX < ceil4 w)
    (hy : bY < ceil4 h) :
    s.memReads (n * blockIndex w bX bY) n = .ok (sourceBlock s.src n (blockIndex w bX bY)) := by
  refine memReads_ok ?_
  have h1 : n * (blockIndex w bX bY + 1) ≤ n * (ceil4 w * ceil4 h) := Nat.mul_le_mul_left _ (blockIndex_lt hx hy)
  rw [Nat.mul_assoc] at hs
  rw [Nat.mul_add, Nat.mul_one] at h1
  omega

/-! ### Tables as functions of a block's bytes (R143) -/

/-- The color table of a DXT1 block (R124 to R127). -/
def dxt1Table (ba : Byte) (blk : List Byte) : ColorTable :=
  let p := endpointPixel (blockByte blk 0) (blockByte blk 1)
  let q := endpointPixel (blockByte blk 2) (blockByte blk 3)
  if gt565 (blockByte blk 0) (blockByte blk 1) (blockByte blk 2) (blockByte blk 3) then
    ⟨p, q, blendPixel 2 1 3 p q 255, blendPixel 1 2 3 p q ba⟩
  else ⟨p, q, blendPixel 1 1 2 p q 255, ⟨0, 0, 0, ba⟩⟩

/-- The color table of a DXT3 or DXT5 block (R131). -/
def colorStageTable (blk : List Byte) : ColorTable :=
  let p := endpointPixel (blockByte blk 8) (blockByte blk 9)
  let q := endpointPixel (blockByte blk 10) (blockByte blk 11)
  ⟨p, q, blendPixel 2 1 3 p q 255, blendPixel 1 2 3 p q 255⟩

/-- The alpha table of a DXT5 block (R135 to R138). -/
def dxt5Table (alpha7 : Option Byte) (blk : List Byte) : AlphaTable :=
  if alpha8Mode (blockByte blk 0) (blockByte blk 1) then alphaTable8 (blockByte blk 0) (blockByte blk 1)
  else alphaTable6 alpha7 (blockByte blk 0) (blockByte blk 1)

/-- Everything that building a DXT1 table does: `CT` and `FOUR` are functions of the block's bytes and `BA`. -/
theorem buildDxt1_eq (blk : List Byte) (d : Datapath) : buildDxt1 blk d =
    { d with
      ct := dxt1Table d.ba blk
      four := gt565 (blockByte blk 0) (blockByte blk 1) (blockByte blk 2) (blockByte blk 3) } := by
  simp only [buildDxt1, buildEndpoints, setFour, dxt1Table, buildFourColor, buildThreeColor, Nat.zero_add]
  cases gt565 (blockByte blk 0) (blockByte blk 1) (blockByte blk 2) (blockByte blk 3) <;> rfl

theorem buildDxt1_ct (blk : List Byte) (d : Datapath) : (buildDxt1 blk d).ct = dxt1Table d.ba blk := by
  rw [buildDxt1_eq]

theorem buildDxt1_ba (blk : List Byte) (d : Datapath) : (buildDxt1 blk d).ba = d.ba := by
  rw [buildDxt1_eq]

theorem buildColorStage_ct (blk : List Byte) (d : Datapath) : (buildColorStage blk d).ct = colorStageTable blk := rfl

theorem buildAlpha_ct (alpha7 : Option Byte) (blk : List Byte) (d : Datapath) : (buildAlpha alpha7 blk d).ct = d.ct := rfl

theorem buildAlpha_atab (alpha7 : Option Byte) (blk : List Byte) (d : Datapath) :
    (buildAlpha alpha7 blk d).atab = dxt5Table alpha7 blk := rfl

/-! ### Pixels as functions of a block's bytes -/

/-- Pixel `(x, y)` of a DXT1 block. -/
def dxt1Pixel (ba : Byte) (cfg : Config) (blk : List Byte) (x y : Nat) : Pixel :=
  colorEntry (dxt1Table ba blk) (colorIndex cfg.colorIndexOrder (blockByte blk (4 + y)) x)

/-- The color of pixel `(x, y)` of a DXT3 or DXT5 block; its alpha is not used. -/
def colorStagePixel (cfg : Config) (blk : List Byte) (x y : Nat) : Pixel :=
  colorEntry (colorStageTable blk) (colorIndex cfg.colorIndexOrder (blockByte blk (12 + y)) x)

/-- Pixel `(x, y)` of a DXT3 block. -/
def dxt3Pixel (cfg : Config) (blk : List Byte) (x y : Nat) : Pixel :=
  { colorStagePixel cfg blk x y with a := explicitAlpha blk x y }

/-- The alpha of pixel `(x, y)` of a DXT5 block; none where the pixel selects the unset entry (R138). -/
def dxt5Alpha (cfg : Config) (blk : List Byte) (x y : Nat) : Option Byte :=
  alphaEntry (dxt5Table cfg.dxt5Alpha7 blk)
    (alphaIndex cfg.dxt5IndexLayout
      (alphaField cfg.dxt5IndexLayout (blockByte blk 2) (blockByte blk 3) (blockByte blk 4) (blockByte blk 5)
        (blockByte blk 6) (blockByte blk 7)) (4 * y + x))

/-- Pixel `(x, y)` of a DXT5 block whose alpha is set. -/
def dxt5Pixel (cfg : Config) (blk : List Byte) (x y : Nat) : Pixel :=
  { colorStagePixel cfg blk x y with a := (dxt5Alpha cfg blk x y).getD 0 }

theorem lookupColor_dxt1 (cfg : Config) (blk : List Byte) (d : Datapath) (x y : Nat) :
    lookupColor cfg.colorIndexOrder blk 0 (buildDxt1 blk d) x y = dxt1Pixel d.ba cfg blk x y := by
  simp only [lookupColor, dxt1Pixel, buildDxt1_ct, Nat.zero_add]

/-! ### Write lists as plain lists -/

/-- A block's list whose pixels are emitted whole, in pixel order (DXT1). -/
def blockList4 (w : Nat) (pix : Nat → Nat → Pixel) (q : Nat × Nat) : WriteList :=
  blockPixels.flatMap fun p => emit4 (doff w q.1 q.2 p.1 p.2) (pix p.1 p.2)

/-- A block's list in two stages, color then alpha (DXT3, DXT5). -/
def blockList31 (w : Nat) (pix : Nat → Nat → Pixel) (q : Nat × Nat) : WriteList :=
  (blockPixels.flatMap fun p => emit3 (doff w q.1 q.2 p.1 p.2) (pix p.1 p.2)) ++
    blockPixels.flatMap fun p => emit (doff w q.1 q.2 p.1 p.2 + 3) (pix p.1 p.2).a

theorem mem_emit3 {o : Nat} {p : Pixel} {a : Nat} {v : Byte} :
    (a, v) ∈ emit3 o p ↔ ∃ ch < 3, a = o + ch ∧ v = pixelByte p ch := by
  constructor
  · intro h
    simp only [emit3, List.mem_cons, Prod.mk.injEq, List.not_mem_nil, or_false] at h
    rcases h with ⟨rfl, rfl⟩ | ⟨rfl, rfl⟩ | ⟨rfl, rfl⟩
    · exact ⟨0, by omega, rfl, rfl⟩
    · exact ⟨1, by omega, rfl, rfl⟩
    · exact ⟨2, by omega, rfl, rfl⟩
  · rintro ⟨ch, hch, rfl, rfl⟩
    interval_cases ch <;> simp [emit3, pixelByte]

theorem mem_blockList4 {w : Nat} {pix : Nat → Nat → Pixel} {q : Nat × Nat} {o : Nat} {v : Byte} :
    (o, v) ∈ blockList4 w pix q ↔ ∃ x < 4, ∃ y < 4, ∃ ch < 4, o = doff w q.1 q.2 x y + ch ∧
      v = pixelByte (pix x y) ch := by
  simp only [blockList4, List.mem_flatMap, Prod.exists, mem_emit4, mem_blockPixels]
  constructor
  · rintro ⟨x, y, ⟨hx, hy⟩, h⟩; exact ⟨x, hx, y, hy, h⟩
  · rintro ⟨x, hx, y, hy, h⟩; exact ⟨x, y, ⟨hx, hy⟩, h⟩

theorem mem_blockList31 {w : Nat} {pix : Nat → Nat → Pixel} {q : Nat × Nat} {o : Nat} {v : Byte} :
    (o, v) ∈ blockList31 w pix q ↔ ∃ x < 4, ∃ y < 4, ∃ ch < 4, o = doff w q.1 q.2 x y + ch ∧
      v = pixelByte (pix x y) ch := by
  simp only [blockList31, List.mem_append, List.mem_flatMap, Prod.exists, mem_emit3, mem_blockPixels, emit,
    List.mem_singleton, Prod.mk.injEq]
  constructor
  · rintro (⟨x, y, ⟨hx, hy⟩, ch, hch, h⟩ | ⟨x, y, ⟨hx, hy⟩, rfl, rfl⟩)
    · exact ⟨x, hx, y, hy, ch, by omega, h⟩
    · exact ⟨x, hx, y, hy, 3, by omega, rfl, rfl⟩
  · rintro ⟨x, hx, y, hy, ch, hch, rfl, rfl⟩
    by_cases h3 : ch = 3
    · subst h3; exact .inr ⟨x, y, ⟨hx, hy⟩, rfl, rfl⟩
    · exact .inl ⟨x, y, ⟨hx, hy⟩, ch, by omega, rfl, rfl⟩

/-- The write list of a DXT1 request (R129). -/
def dxt1List (ba : Byte) (w h : Nat) (cfg : Config) (src : Memory) : WriteList :=
  (blockGrid w h).flatMap fun q =>
    blockList4 w (dxt1Pixel ba cfg (sourceBlock src 8 (blockIndex w q.1 q.2))) q

/-- The write list of a DXT3 request (R133). -/
def dxt3List (w h : Nat) (cfg : Config) (src : Memory) : WriteList :=
  (blockGrid w h).flatMap fun q =>
    blockList31 w (dxt3Pixel cfg (sourceBlock src 16 (blockIndex w q.1 q.2))) q

/-- The write list of a DXT5 request none of whose pixels selects the unset entry (R141). -/
def dxt5List (w h : Nat) (cfg : Config) (src : Memory) : WriteList :=
  (blockGrid w h).flatMap fun q =>
    blockList31 w (dxt5Pixel cfg (sourceBlock src 16 (blockIndex w q.1 q.2))) q

/-- Some pixel of a block selects the unset entry 7 (R138). -/
def blockUnset (cfg : Config) (blk : List Byte) : Prop :=
  ∃ x < 4, ∃ y < 4, dxt5Alpha cfg blk x y = none

theorem writeListDxt1_ok {ba : Byte} {w h : Nat} {s : State} (hs : srcReqBlock8 w h ≤ s.srcLen) :
    ∃ d, writeListDxt1 ba w h s = .ok (d, dxt1List ba w h s.cfg s.src) := by
  refine (runLoop_spec (bad := fun _ => False) (c := .srcRange) (P := fun d => d.ba = ba) ?_ rfl).2 (by simp)
  rintro ⟨bX, bY⟩ hq d hd
  obtain ⟨hx, hy⟩ := mem_blockGrid.1 hq
  refine ⟨fun h => h.elim, fun _ => ⟨buildDxt1 (sourceBlock s.src 8 (blockIndex w bX bY)) d, ?_, ?_⟩⟩
  · rw [buildDxt1_ba, hd]
  · simp only [blockDxt1, memReads_block hs hx hy, emitDxt1, blockList4, lookupColor_dxt1, hd]

theorem writeListDxt3_ok {w h : Nat} {s : State} (hs : srcReqBlock16 w h ≤ s.srcLen) :
    ∃ d, writeListDxt3 w h s = .ok (d, dxt3List w h s.cfg s.src) := by
  refine (runLoop_spec (bad := fun _ => False) (c := .srcRange) (P := fun _ => True) ?_ trivial).2 (by simp)
  rintro ⟨bX, bY⟩ hq d -
  obtain ⟨hx, hy⟩ := mem_blockGrid.1 hq
  refine ⟨fun h => h.elim,
    fun _ => ⟨buildColorStage (sourceBlock s.src 16 (blockIndex w bX bY)) d, trivial, ?_⟩⟩
  simp only [blockDxt3, memReads_block hs hx hy]
  rfl

theorem emitAlphaStage5_spec (cfg : Config) (w bX bY : Nat) (blk : List Byte) (d : Datapath)
    (hd : d.atab = dxt5Table cfg.dxt5Alpha7 blk) (ps : List (Nat × Nat)) :
    ((∃ p ∈ ps, dxt5Alpha cfg blk p.1 p.2 = none) →
      emitAlphaStage5 cfg.dxt5IndexLayout w bX bY blk d ps = .error .alpha7Unset) ∧
    ((∀ p ∈ ps, dxt5Alpha cfg blk p.1 p.2 ≠ none) →
      emitAlphaStage5 cfg.dxt5IndexLayout w bX bY blk d ps =
        .ok (ps.flatMap fun p => emit (doff w bX bY p.1 p.2 + 3) (dxt5Pixel cfg blk p.1 p.2).a)) := by
  have hlook : ∀ x y, lookupAlpha cfg.dxt5IndexLayout blk d x y = dxt5Alpha cfg blk x y := by
    intro x y; simp only [lookupAlpha, dxt5Alpha, hd]
  induction ps with
  | nil => exact ⟨fun ⟨_, h, _⟩ => absurd h (by simp), fun _ => rfl⟩
  | cons p ps ih =>
    constructor
    · intro hex
      cases hp : dxt5Alpha cfg blk p.1 p.2 with
      | none => simp only [emitAlphaStage5, hlook, hp]
      | some v =>
        have hex' : ∃ p ∈ ps, dxt5Alpha cfg blk p.1 p.2 = none := by
          obtain ⟨r, hr, hn⟩ := hex
          rcases List.mem_cons.1 hr with rfl | hr
          · rw [hp] at hn; cases hn
          · exact ⟨r, hr, hn⟩
        simp only [emitAlphaStage5, hlook, hp, ih.1 hex']
    · intro hall
      obtain ⟨v, hv⟩ := Option.ne_none_iff_exists'.1 (hall p (by simp))
      have hrest := ih.2 fun r hr => hall r (by simp [hr])
      simp only [emitAlphaStage5, hlook, hv, hrest, List.flatMap_cons, dxt5Pixel, Option.getD_some]

theorem writeListDxt5_spec {w h : Nat} {s : State} (hs : srcReqBlock16 w h ≤ s.srcLen) :
    ((∃ q ∈ blockGrid w h, blockUnset s.cfg (sourceBlock s.src 16 (blockIndex w q.1 q.2))) →
      writeListDxt5 w h s = .error .alpha7Unset) ∧
    ((∀ q ∈ blockGrid w h, ¬blockUnset s.cfg (sourceBlock s.src 16 (blockIndex w q.1 q.2))) →
      ∃ d, writeListDxt5 w h s = .ok (d, dxt5List w h s.cfg s.src)) := by
  refine runLoop_spec (P := fun _ => True) ?_ trivial
  rintro ⟨bX, bY⟩ hq d -
  obtain ⟨hx, hy⟩ := mem_blockGrid.1 hq
  have hspec := emitAlphaStage5_spec s.cfg w bX bY (sourceBlock s.src 16 (blockIndex w bX bY))
    (buildAlpha s.cfg.dxt5Alpha7 (sourceBlock s.src 16 (blockIndex w bX bY))
      (buildColorStage (sourceBlock s.src 16 (blockIndex w bX bY)) d)) rfl blockPixels
  constructor
  · rintro ⟨x, hx4, y, hy4, hn⟩
    simp only [blockDxt5, memReads_block hs hx hy, hspec.1 ⟨(x, y), mem_blockPixels.2 ⟨hx4, hy4⟩, hn⟩]
  · intro hset
    have hok := hspec.2 (by
      rintro ⟨x, y⟩ hp hn
      obtain ⟨hx4, hy4⟩ := mem_blockPixels.1 hp
      exact hset ⟨x, hx4, y, hy4, hn⟩)
    refine ⟨buildAlpha s.cfg.dxt5Alpha7 (sourceBlock s.src 16 (blockIndex w bX bY))
      (buildColorStage (sourceBlock s.src 16 (blockIndex w bX bY)) d), trivial, ?_⟩
    simp only [blockDxt5, memReads_block hs hx hy, hok]
    rfl

/-! ### What a DXT request answers -/

/-- Which entries a DXT write list has: for pixel contents `pix bx by x y`, byte `ch` of every block pixel at its
offset. -/
def Writes (w h : Nat) (pix : Nat → Nat → Nat → Nat → Pixel) (wl : WriteList) : Prop :=
  ∀ o v, (o, v) ∈ wl ↔ ∃ bX < ceil4 w, ∃ bY < ceil4 h, ∃ x < 4, ∃ y < 4, ∃ ch < 4,
    o = doff w bX bY x y + ch ∧ v = pixelByte (pix bX bY x y) ch

theorem writes_of_grid {w h : Nat} {pix : Nat → Nat → Nat → Nat → Pixel} {f : Nat × Nat → WriteList}
    (hf : ∀ q o v, (o, v) ∈ f q ↔ ∃ x < 4, ∃ y < 4, ∃ ch < 4, o = doff w q.1 q.2 x y + ch ∧
      v = pixelByte (pix q.1 q.2 x y) ch) : Writes w h pix ((blockGrid w h).flatMap f) := by
  intro o v
  simp only [List.mem_flatMap, Prod.exists, mem_blockGrid, hf]
  constructor
  · rintro ⟨bX, bY, ⟨hx, hy⟩, h⟩; exact ⟨bX, hx, bY, hy, h⟩
  · rintro ⟨bX, hx, bY, hy, h⟩; exact ⟨bX, bY, ⟨hx, hy⟩, h⟩

theorem writes_dxt1List (ba : Byte) (w h : Nat) (cfg : Config) (src : Memory) :
    Writes w h (fun bX bY => dxt1Pixel ba cfg (sourceBlock src 8 (blockIndex w bX bY))) (dxt1List ba w h cfg src) :=
  writes_of_grid fun _ _ _ => mem_blockList4

theorem writes_dxt3List (w h : Nat) (cfg : Config) (src : Memory) :
    Writes w h (fun bX bY => dxt3Pixel cfg (sourceBlock src 16 (blockIndex w bX bY))) (dxt3List w h cfg src) :=
  writes_of_grid fun _ _ _ => mem_blockList31

theorem writes_dxt5List (w h : Nat) (cfg : Config) (src : Memory) :
    Writes w h (fun bX bY => dxt5Pixel cfg (sourceBlock src 16 (blockIndex w bX bY))) (dxt5List w h cfg src) :=
  writes_of_grid fun _ _ _ => mem_blockList31

theorem Writes.lt {w h : Nat} {pix : Nat → Nat → Nat → Nat → Pixel} {wl : WriteList} (hw : Writes w h pix wl)
    {c : Host.Cell} (hc : c ∈ wl) : c.1 < dstReqDxt w h := by
  obtain ⟨bX, hx, bY, hy, x, hx4, y, hy4, ch, hch, e, -⟩ := (hw c.1 c.2).1 hc
  rw [e]; exact doff_lt hx hy hx4 hy4 hch

/-- A block pixel's byte is, after the commit, the byte of some block pixel at that offset (R45). -/
theorem Writes.read_mem {w h : Nat} {pix : Nat → Nat → Nat → Nat → Pixel} {wl : WriteList} (hw : Writes w h pix wl)
    (order : WriteOrder) (draw : Nat) {m : Memory} (hm : m.wf = true) {bX bY x y ch : Nat} (hbx : bX < ceil4 w)
    (hby : bY < ceil4 h) (hx : x < 4) (hy : y < 4) (hch : ch < 4) :
    ∃ bX' < ceil4 w, ∃ bY' < ceil4 h, ∃ x' < 4, ∃ y' < 4, ∃ ch' < 4,
      doff w bX bY x y + ch = doff w bX' bY' x' y' + ch' ∧
      (commit order draw wl m).read (doff w bX bY x y + ch) = pixelByte (pix bX' bY' x' y') ch' :=
  (hw _ _).1 (read_commit_mem order draw hm ((hw _ _).2 ⟨bX, hbx, bY, hby, x, hx, y, hy, ch, hch, rfl, rfl⟩))

/-- With `W` a multiple of 4, every block pixel is written once and reads back (R46). -/
theorem Writes.read_aligned {w h : Nat} {pix : Nat → Nat → Nat → Nat → Pixel} {wl : WriteList}
    (hw : Writes w h pix wl) (h4 : w % 4 = 0) (order : WriteOrder) (draw : Nat) {m : Memory} (hm : m.wf = true)
    {bX bY x y ch : Nat} (hbx : bX < ceil4 w) (hby : bY < ceil4 h) (hx : x < 4) (hy : y < 4) (hch : ch < 4) :
    (commit order draw wl m).read (doff w bX bY x y + ch) = pixelByte (pix bX bY x y) ch := by
  obtain ⟨bX', hbx', bY', -, x', hx', y', hy', ch', hch', e, hr⟩ := hw.read_mem order draw hm hbx hby hx hy hch
  obtain ⟨rfl, rfl, rfl, rfl, rfl⟩ := doff_inj h4 hbx hbx' hx hx' hy hy' hch hch' e
  exact hr

/-- An offset of no block pixel keeps its byte (R46). -/
theorem Writes.read_other {w h : Nat} {pix : Nat → Nat → Nat → Nat → Pixel} {wl : WriteList} (hw : Writes w h pix wl)
    (order : WriteOrder) (draw : Nat) {m : Memory} (hm : m.wf = true) {o : Nat}
    (ho : ∀ bX < ceil4 w, ∀ bY < ceil4 h, ∀ x < 4, ∀ y < 4, ∀ ch < 4, o ≠ doff w bX bY x y + ch) :
    (commit order draw wl m).read o = m.read o :=
  read_commit_of_not_written order draw hm fun v hv => by
    obtain ⟨bX, hbx, bY, hby, x, hx, y, hy, ch, hch, e, -⟩ := (hw o v).1 hv
    exact ho bX hbx bY hby x hx y hy ch hch e

/-- Under REFERENCE the last block of the grid that writes an offset decides its byte: the block's own last value there
(R45, R142). -/
theorem read_commit_last_block (draw o : Nat) {f : Nat × Nat → WriteList} {w h bX bY : Nat} (hx : bX < ceil4 w)
    (hy : bY < ceil4 h) {v : Byte} (hv : (valuesAt (f (bX, bY)) o).getLast? = some v)
    (hlater : ∀ q ∈ blockGrid w h, (bY < q.2 ∨ (bY = q.2 ∧ bX < q.1)) → ∀ u, (o, u) ∉ f q) {m : Memory}
    (hm : m.wf = true) : (commit .reference draw ((blockGrid w h).flatMap f) m).read o = v := by
  rw [read_commit _ _ _ hm, chosenValue_reference,
    getLast_valuesAt_flatMap (blockGrid_pairwise w h) (mem_blockGrid.2 ⟨hx, hy⟩) hv hlater]
  rfl

/-- A block's pixels are in reference order (R142). -/
theorem blockPixels_pairwise : blockPixels.Pairwise fun p q => 4 * p.2 + p.1 < 4 * q.2 + q.1 := by decide

/-- The last value of a DXT1 block at a pixel's byte is that pixel's, when no later pixel of the block has the offset. -/
theorem getLast_blockList4 {w : Nat} {pix : Nat → Nat → Pixel} {q : Nat × Nat} {x y ch : Nat} (hx : x < 4) (hy : y < 4)
    (hch : ch < 4)
    (hlater : ∀ x' < 4, ∀ y' < 4, 4 * y + x < 4 * y' + x' → doff w q.1 q.2 x' y' ≠ doff w q.1 q.2 x y) :
    (valuesAt (blockList4 w pix q) (doff w q.1 q.2 x y + ch)).getLast? = some (pixelByte (pix x y) ch) := by
  refine getLast_valuesAt_flatMap blockPixels_pairwise (mem_blockPixels.2 ⟨hx, hy⟩)
    (getLast_valuesAt_unique (mem_emit4.2 ⟨ch, hch, rfl, rfl⟩) fun u hu => ?_) fun p hp hlt u hu => ?_
  · obtain ⟨ch', -, e, rfl⟩ := mem_emit4.1 hu
    rw [Nat.add_left_cancel e]
  · obtain ⟨hx', hy'⟩ := mem_blockPixels.1 hp
    obtain ⟨ch', hch', e, -⟩ := mem_emit4.1 hu
    exact hlater p.1 hx' p.2 hy' hlt (by unfold doff at *; omega)

/-- The same of a DXT3 or DXT5 block: its color stage and its alpha stage write disjoint byte lanes (R142). -/
theorem getLast_blockList31 {w : Nat} {pix : Nat → Nat → Pixel} {q : Nat × Nat} {x y ch : Nat} (hx : x < 4) (hy : y < 4)
    (hch : ch < 4)
    (hlater : ∀ x' < 4, ∀ y' < 4, 4 * y + x < 4 * y' + x' → doff w q.1 q.2 x' y' ≠ doff w q.1 q.2 x y) :
    (valuesAt (blockList31 w pix q) (doff w q.1 q.2 x y + ch)).getLast? = some (pixelByte (pix x y) ch) := by
  rw [blockList31, valuesAt_append]
  by_cases h3 : ch = 3
  · subst h3
    rw [List.getLast?_append, getLast_valuesAt_flatMap (v := (pix x y).a) blockPixels_pairwise
      (mem_blockPixels.2 ⟨hx, hy⟩) (getLast_valuesAt_unique (List.mem_singleton.2 rfl) fun u hu => ?_)
      fun p hp hlt u hu => ?_]
    · rfl
    · exact (Prod.mk.inj (List.mem_singleton.1 hu)).2
    · obtain ⟨hx', hy'⟩ := mem_blockPixels.1 hp
      have e := (Prod.mk.inj (List.mem_singleton.1 hu)).1
      exact hlater p.1 hx' p.2 hy' hlt (by omega)
  · have halpha : valuesAt (blockPixels.flatMap fun p => emit (doff w q.1 q.2 p.1 p.2 + 3) (pix p.1 p.2).a)
        (doff w q.1 q.2 x y + ch) = [] := by
      refine List.eq_nil_iff_forall_not_mem.2 fun u hu => ?_
      obtain ⟨p, -, hmem⟩ := List.mem_flatMap.1 (mem_valuesAt.1 hu)
      have e := (Prod.mk.inj (List.mem_singleton.1 hmem)).1
      unfold doff at e
      omega
    rw [halpha, List.append_nil]
    refine getLast_valuesAt_flatMap blockPixels_pairwise (mem_blockPixels.2 ⟨hx, hy⟩)
      (getLast_valuesAt_unique (mem_emit3.2 ⟨ch, by omega, rfl, rfl⟩) fun u hu => ?_) fun p hp hlt u hu => ?_
    · obtain ⟨ch', -, e, rfl⟩ := mem_emit3.1 hu
      rw [Nat.add_left_cancel e]
    · obtain ⟨hx', hy'⟩ := mem_blockPixels.1 hp
      obtain ⟨ch', hch', e, -⟩ := mem_emit3.1 hu
      exact hlater p.1 hx' p.2 hy' hlt (by unfold doff at *; omega)

/-- Under REFERENCE a byte of the last block pixel at its offset holds that pixel's value, `v` being its block's last
value there (R45, R142). -/
theorem read_commit_last_pixel (draw : Nat) {f : Nat × Nat → WriteList} {w h bX bY x y ch : Nat} (hbx : bX < ceil4 w)
    (hby : bY < ceil4 h) (hch : ch < 4)
    (hmem : ∀ q o u, (o, u) ∈ f q → ∃ x' < 4, ∃ y' < 4, ∃ ch' < 4, o = doff w q.1 q.2 x' y' + ch')
    (hlast : ∀ bX' < ceil4 w, ∀ bY' < ceil4 h, ∀ x' < 4, ∀ y' < 4, doff w bX' bY' x' y' = doff w bX bY x y →
      bY' < bY ∨ (bY' = bY ∧ (bX' < bX ∨ (bX' = bX ∧ 4 * y' + x' ≤ 4 * y + x))))
    {v : Byte} (hv : (∀ x' < 4, ∀ y' < 4, 4 * y + x < 4 * y' + x' → doff w bX bY x' y' ≠ doff w bX bY x y) →
      (valuesAt (f (bX, bY)) (doff w bX bY x y + ch)).getLast? = some v)
    {m : Memory} (hm : m.wf = true) :
    (commit .reference draw ((blockGrid w h).flatMap f) m).read (doff w bX bY x y + ch) = v := by
  refine read_commit_last_block _ _ hbx hby (hv fun x' hx' y' hy' hlt e => ?_) (fun q hq hlt u hu => ?_) hm
  · have := hlast bX hbx bY hby x' hx' y' hy' e
    omega
  · obtain ⟨hx1, hy1⟩ := mem_blockGrid.1 hq
    obtain ⟨x', hx', y', hy', ch', hch', e⟩ := hmem q _ u hu
    have := hlast q.1 hx1 q.2 hy1 x' hx' y' hy' (by unfold doff at *; omega)
    omega

/-- `read_commit_last_pixel` of a DXT1 list. -/
theorem read_commit_last_blockList4 (draw : Nat) (pix : Nat → Nat → Nat → Nat → Pixel) {w h bX bY x y ch : Nat}
    (hbx : bX < ceil4 w) (hby : bY < ceil4 h) (hx : x < 4) (hy : y < 4) (hch : ch < 4)
    (hlast : ∀ bX' < ceil4 w, ∀ bY' < ceil4 h, ∀ x' < 4, ∀ y' < 4, doff w bX' bY' x' y' = doff w bX bY x y →
      bY' < bY ∨ (bY' = bY ∧ (bX' < bX ∨ (bX' = bX ∧ 4 * y' + x' ≤ 4 * y + x))))
    {m : Memory} (hm : m.wf = true) :
    (commit .reference draw ((blockGrid w h).flatMap fun q => blockList4 w (pix q.1 q.2) q) m).read
      (doff w bX bY x y + ch) = pixelByte (pix bX bY x y) ch := by
  refine read_commit_last_pixel (f := fun q => blockList4 w (pix q.1 q.2) q) draw hbx hby hch (fun q o u hu => ?_) hlast
    (getLast_blockList4 (q := (bX, bY)) hx hy hch) hm
  obtain ⟨x', h1, y', h2, ch', h3, e, -⟩ := mem_blockList4.1 hu
  exact ⟨x', h1, y', h2, ch', h3, e⟩

/-- `read_commit_last_pixel` of a DXT3 or DXT5 list. -/
theorem read_commit_last_blockList31 (draw : Nat) (pix : Nat → Nat → Nat → Nat → Pixel) {w h bX bY x y ch : Nat}
    (hbx : bX < ceil4 w) (hby : bY < ceil4 h) (hx : x < 4) (hy : y < 4) (hch : ch < 4)
    (hlast : ∀ bX' < ceil4 w, ∀ bY' < ceil4 h, ∀ x' < 4, ∀ y' < 4, doff w bX' bY' x' y' = doff w bX bY x y →
      bY' < bY ∨ (bY' = bY ∧ (bX' < bX ∨ (bX' = bX ∧ 4 * y' + x' ≤ 4 * y + x))))
    {m : Memory} (hm : m.wf = true) :
    (commit .reference draw ((blockGrid w h).flatMap fun q => blockList31 w (pix q.1 q.2) q) m).read
      (doff w bX bY x y + ch) = pixelByte (pix bX bY x y) ch := by
  refine read_commit_last_pixel (f := fun q => blockList31 w (pix q.1 q.2) q) draw hbx hby hch (fun q o u hu => ?_) hlast
    (getLast_blockList31 (q := (bX, bY)) hx hy hch) hm
  obtain ⟨x', h1, y', h2, ch', h3, e, -⟩ := mem_blockList31.1 hu
  exact ⟨x', h1, y', h2, ch', h3, e⟩

theorem execDxt1_done {w h : Nat} {s : State} (hs : srcReqBlock8 w h ≤ s.srcLen) (hd : dstReqDxt w h ≤ s.dstLen) :
    execDxt1 w h s = .next (s.endDone (dxt1List 255 w h s.cfg s.src)) := by
  obtain ⟨d, hw⟩ := writeListDxt1_ok (ba := 255) hs
  exact runRequest_done hs hd hw fun c hc => Writes.lt (writes_dxt1List _ _ _ _ _) hc

theorem execDxt1OneBitAlpha_done {w h : Nat} {s : State} (hs : srcReqBlock8 w h ≤ s.srcLen)
    (hd : dstReqDxt w h ≤ s.dstLen) :
    execDxt1OneBitAlpha w h s = .next (s.endDone (dxt1List 0 w h s.cfg s.src)) := by
  obtain ⟨d, hw⟩ := writeListDxt1_ok (ba := 0) hs
  exact runRequest_done hs hd hw fun c hc => Writes.lt (writes_dxt1List _ _ _ _ _) hc

theorem execDxt3_done {w h : Nat} {s : State} (hs : srcReqBlock16 w h ≤ s.srcLen) (hd : dstReqDxt w h ≤ s.dstLen) :
    execDxt3 w h s = .next (s.endDone (dxt3List w h s.cfg s.src)) := by
  obtain ⟨d, hw⟩ := writeListDxt3_ok hs
  exact runRequest_done hs hd hw fun c hc => Writes.lt (writes_dxt3List _ _ _ _) hc

theorem execDxt5_done {w h : Nat} {s : State} (hs : srcReqBlock16 w h ≤ s.srcLen) (hd : dstReqDxt w h ≤ s.dstLen)
    (hset : ∀ q ∈ blockGrid w h, ¬blockUnset s.cfg (sourceBlock s.src 16 (blockIndex w q.1 q.2))) :
    execDxt5 w h s = .next (s.endDone (dxt5List w h s.cfg s.src)) := by
  obtain ⟨d, hw⟩ := (writeListDxt5_spec hs).2 hset
  exact runRequest_done hs hd hw fun c hc => Writes.lt (writes_dxt5List _ _ _ _) hc

theorem execDxt5_unset {w h : Nat} {s : State} (hs : srcReqBlock16 w h ≤ s.srcLen) (hd : dstReqDxt w h ≤ s.dstLen)
    (hset : ∃ q ∈ blockGrid w h, blockUnset s.cfg (sourceBlock s.src 16 (blockIndex w q.1 q.2))) :
    execDxt5 w h s = .next (s.endFault .alpha7Unset) :=
  runRequest_error hs hd ((writeListDxt5_spec hs).1 hset)

end Sys2Proof.Machine
end

