-- ==== Sys2Proof/Laws/Decode.lean ====
section
/-! SUPPORT. The command word: its fields after encoding, and what it means that a word decodes. -/

namespace Sys2Proof

theorem cmdFmt_encode (i : Instr) : cmdFmt (encode i) = fmtCode i := by
  ext k hk
  simp [cmdFmt, encode, ← BitVec.getLsbD_eq_getElem, show k < 8 by omega, show k < 16 by omega, show k < 32 by omega]
  exact fun _ => by omega

theorem cmdRsv0_encode (i : Instr) : cmdRsv0 (encode i) = 0 := by
  ext k hk
  simp [cmdRsv0, encode, show ¬16 ≤ 8 + k by omega, show ¬32 ≤ 8 + k by omega]

theorem cmdWidth_encode (i : Instr) : cmdWidth (encode i) = BitVec.ofNat 16 i.width := by
  ext k hk
  have h1 : (fmtCode i).getLsbD (16 + k) = false := BitVec.getLsbD_of_ge _ _ (by omega)
  simp [cmdWidth, encode, ← BitVec.getLsbD_eq_getElem, h1, show 16 + k < 64 by omega, show k < 64 by omega,
    show 16 + k < 32 by omega, hk]

theorem cmdHeight_encode (i : Instr) : cmdHeight (encode i) = BitVec.ofNat 16 i.height := by
  ext k hk
  have h1 : (BitVec.ofNat 16 i.width).getLsbD (32 + k - 16) = false := BitVec.getLsbD_of_ge _ _ (by omega)
  have h2 : (fmtCode i).getLsbD (32 + k) = false := BitVec.getLsbD_of_ge _ _ (by omega)
  simp [cmdHeight, encode, ← BitVec.getLsbD_eq_getElem, h1, h2, show 32 + k < 64 by omega, show k < 64 by omega]
  exact fun _ => hk

theorem cmdRsv1_encode (i : Instr) : cmdRsv1 (encode i) = 0 := by
  ext k hk
  have h1 : (BitVec.ofNat 16 i.width).getLsbD (48 + k - 16) = false := BitVec.getLsbD_of_ge _ _ (by omega)
  have h2 : (fmtCode i).getLsbD (48 + k) = false := BitVec.getLsbD_of_ge _ _ (by omega)
  have h3 : (BitVec.ofNat 16 i.height).getLsbD (48 + k - 32) = false := BitVec.getLsbD_of_ge _ _ (by omega)
  simp [cmdRsv1, encode, h1, h2, h3]

theorem requestOfFmt_fmtCode (i : Instr) : requestOfFmt (fmtCode i) i.width i.height = some i := by
  cases i <;> rfl

theorem requestOfFmt_eq_some {f : BitVec 8} {w h : Nat} {i : Instr} (e : requestOfFmt f w h = some i) :
    fmtCode i = f ∧ i.width = w ∧ i.height = h := by
  unfold requestOfFmt at e
  split_ifs at e <;> simp_all <;> subst e <;> exact ⟨rfl, rfl, rfl⟩

/-- A word decodes to a request exactly when its reserved fields are 0 and its other fields are the request's. -/
theorem decode_eq_ok {cmd : BitVec 64} {i : Instr} : decode cmd = .ok i ↔
    cmdRsv0 cmd = 0 ∧ cmdRsv1 cmd = 0 ∧ fmtCode i = cmdFmt cmd ∧ i.width = (cmdWidth cmd).toNat ∧
      i.height = (cmdHeight cmd).toNat := by
  constructor
  · intro h
    unfold decode at h
    split_ifs at h with hr
    simp only [not_or, not_not] at hr
    cases hq : requestOfFmt (cmdFmt cmd) (cmdWidth cmd).toNat (cmdHeight cmd).toNat with
    | none => simp [hq] at h
    | some j =>
      simp only [hq, Except.ok.injEq] at h
      subst h
      exact ⟨hr.1, hr.2, requestOfFmt_eq_some hq⟩
  · rintro ⟨h0, h1, hf, hw, hh⟩
    have hq := requestOfFmt_fmtCode i
    rw [hf, hw, hh] at hq
    simp [decode, h0, h1, hq]

/-- A word whose reserved fields are 0 is the encoding of the request that its other fields give. -/
theorem encode_of_fields {i : Instr} {cmd : BitVec 64} (h0 : cmdRsv0 cmd = 0) (h1 : cmdRsv1 cmd = 0)
    (hf : fmtCode i = cmdFmt cmd) (hw : i.width = (cmdWidth cmd).toNat) (hh : i.height = (cmdHeight cmd).toNat) :
    encode i = cmd := by
  have e0 : ∀ k, 8 ≤ k → k < 16 → cmd.getLsbD k = false := by
    intro k hk hk'
    have h := congrArg (fun v => v.getLsbD (k - 8)) h0
    simpa [cmdRsv0, show k - 8 < 8 by omega, show 8 + (k - 8) = k by omega] using h
  have e1 : ∀ k, 48 ≤ k → k < 64 → cmd.getLsbD k = false := by
    intro k hk hk'
    have h := congrArg (fun v => v.getLsbD (k - 48)) h1
    simpa [cmdRsv1, show k - 48 < 16 by omega, show 48 + (k - 48) = k by omega] using h
  unfold encode
  rw [hf, hw, hh, BitVec.ofNat_toNat, BitVec.ofNat_toNat]
  ext k hk
  simp only [cmdFmt, cmdWidth, cmdHeight]
  simp only [← BitVec.getLsbD_eq_getElem]
  rcases (by omega : k < 8 ∨ (8 ≤ k ∧ k < 16) ∨ (16 ≤ k ∧ k < 32) ∨ (32 ≤ k ∧ k < 48) ∨ 48 ≤ k) with h | h | h | h | h
  · simp [h, show k < 16 by omega, show k < 32 by omega]; exact fun _ => hk
  · simp [e0 k h.1 h.2, show ¬k < 8 by omega, show k < 16 by omega, show k < 32 by omega]
  · simp [show ¬k < 8 by omega, show ¬k < 16 by omega, show k < 32 by omega, show k - 16 < 64 by omega,
      show k - 16 < 16 by omega, show 16 + (k - 16) = k by omega]; exact fun _ => hk
  · simp [show ¬k < 8 by omega, show ¬k - 16 < 16 by omega, show ¬k < 32 by omega, show k - 32 < 64 by omega,
      show k - 32 < 16 by omega, show 32 + (k - 32) = k by omega]; exact fun _ => hk
  · simp [e1 k h hk, show ¬k < 8 by omega, show ¬k - 16 < 16 by omega, show ¬k - 32 < 16 by omega]

end Sys2Proof
end

