-- ==== Sys2Proof/Laws/Step.lean ====
section
/-! SUPPORT. Everything a request and a step can do, each said once; the frame and the invariant's parts follow from
these. -/

namespace Sys2Proof.Machine

/-- Every request ends in a fault or commits a write list that is inside `D`. -/
theorem exec_cases (i : Instr) (s : State) :
    (∃ c, exec i s = .next (s.endFault c)) ∨
    (∃ wl, (∀ c ∈ wl, c.1 < s.dstLen) ∧ exec i s = .next (s.endDone wl)) := by
  cases i <;> exact runRequest_next ..

/-- Executing the command word ends REFUSED, in a fault, or DONE. -/
theorem execute_cases (s : State) :
    (∃ r, s.execute = .next (s.endRefused r)) ∨
    (∃ c, s.execute = .next (s.endFault c)) ∨
    (∃ wl, (∀ c ∈ wl, c.1 < s.dstLen) ∧ s.execute = .next (s.endDone wl)) := by
  unfold State.execute
  cases decode s.cmd with
  | error r => exact .inl ⟨r, rfl⟩
  | ok i => exact .inr (exec_cases i s)

theorem execute_of_decode {s : State} {i : Instr} (h : decode s.cmd = .ok i) : s.execute = exec i s := by
  simp only [State.execute, h]

theorem execute_of_refused {s : State} {r : RefuseReason} (h : decode s.cmd = .error r) :
    s.execute = .next (s.endRefused r) := by
  simp only [State.execute, h]

theorem step_executing {s : State} (h : s.inProgress = true) (hr : s.resetNext = false) : step s = s.execute := by
  simp [step, h, hr]

theorem step_hostTurn {s : State} (h : s.inProgress = false ∨ s.resetNext = true) : step s = .next s.hostTurn := by
  rcases h with h | h <;> simp [step, h]

theorem hostTurn_nil {s : State} (h : s.events = []) : s.hostTurn = s := by
  simp only [State.hostTurn, h]

theorem hostTurn_cons {s : State} {e : HostEvent} {es : List HostEvent} (h : s.events = e :: es) :
    s.hostTurn = ({ s with events := es } : State).takeEvent e := by
  simp only [State.hostTurn, h]

theorem resetNext_cons {s : State} {e : HostEvent} {es : List HostEvent} (h : s.events = e :: es) :
    s.resetNext = e.isReset := by
  simp only [State.resetNext, h]

theorem isReset_iff {e : HostEvent} : e.isReset = true ↔ e = .reset := by
  cases e <;> simp [HostEvent.isReset]

/-- Everything a step can do. -/
theorem step_cases {s t : State} (h : step s = .next t) :
    (s.inProgress = true ∧ s.resetNext = false ∧
      ((∃ r, t = s.endRefused r) ∨ (∃ c, t = s.endFault c) ∨
        (∃ wl, (∀ c ∈ wl, c.1 < s.dstLen) ∧ t = s.endDone wl))) ∨
    (∃ es, s.events = .reset :: es ∧ t = ({ s with events := es } : State).applyReset) ∨
    (s.inProgress = false ∧ s.events = [] ∧ t = s) ∨
    (∃ e es, s.inProgress = false ∧ s.events = e :: es ∧ e ≠ .reset ∧
      t = ({ s with events := es } : State).takeEvent e) := by
  by_cases hx : s.inProgress = true ∧ s.resetNext = false
  · refine .inl ⟨hx.1, hx.2, ?_⟩
    rw [step_executing hx.1 hx.2] at h
    rcases execute_cases s with ⟨r, e⟩ | ⟨c, e⟩ | ⟨wl, hwl, e⟩ <;> rw [e] at h <;> cases h
    · exact .inl ⟨r, rfl⟩
    · exact .inr (.inl ⟨c, rfl⟩)
    · exact .inr (.inr ⟨wl, hwl, rfl⟩)
  · have hx' : s.inProgress = false ∨ s.resetNext = true := by
      cases h1 : s.inProgress <;> cases h2 : s.resetNext <;> simp_all
    rw [step_hostTurn hx'] at h
    cases h
    right
    cases he : s.events with
    | nil =>
      have hr : s.resetNext = false := by simp only [State.resetNext, he]
      exact .inr (.inl ⟨by simpa [hr] using hx', rfl, hostTurn_nil he⟩)
    | cons e es =>
      rw [hostTurn_cons he]
      by_cases hreset : e = .reset
      · subst hreset; exact .inl ⟨es, rfl, rfl⟩
      · have hr : s.resetNext = false := by
          rw [resetNext_cons he, ← Bool.not_eq_true, isReset_iff]; exact hreset
        exact .inr (.inr ⟨e, es, by simpa [hr] using hx', rfl, hreset, rfl⟩)

/-- A run of `k + 1` steps whose first step answers a next state is the run of `k` steps from there. -/
theorem run_succ_of_next (M : Host.Core) {s u : M.State} (k : Nat) (h : M.step s = .next u) :
    M.run (k + 1) s = M.run k u := by
  rw [Host.Core.run, h]

/-! ### Destination windows at the end of a request -/

theorem wf_endDone {s : State} (h : s.dst.wf = true) (wl : WriteList) : (s.endDone wl).dst.wf = true :=
  wf_commit _ _ _ h

theorem wf_endFault {s : State} (h : s.dst.wf = true) (c : FaultCause) : (s.endFault c).dst.wf = true :=
  wf_scrambleDst h

theorem read_endFault_above {s : State} (h : s.dst.wf = true) (c : FaultCause) {o : Nat} (ho : s.dstLen ≤ o) :
    (s.endFault c).dst.read o = s.dst.read o := by
  rw [State.endFault_dst, read_scrambleDst h, if_neg (Nat.not_lt.2 ho)]

theorem read_endDone_of_not_written {s : State} (h : s.dst.wf = true) {wl : WriteList} {o : Nat}
    (ho : ∀ v, (o, v) ∉ wl) : (s.endDone wl).dst.read o = s.dst.read o := by
  rw [State.endDone_dst, read_commit_of_not_written _ _ h ho]

/-! ### STATUS -/

theorem statusOutcome_mkStatus (c : BitVec 8) (f : Bool) (o : BitVec 2) : statusOutcome (mkStatus c f o) = o := by
  ext k hk
  simp [statusOutcome, mkStatus, ← BitVec.getLsbD_eq_getElem, hk, show k < 8 by omega, show k < 16 by omega]

theorem statusFaultSeen_mkStatus (c : BitVec 8) (f : Bool) (o : BitVec 2) :
    statusFaultSeen (mkStatus c f o) = f := by
  simp [statusFaultSeen, mkStatus]

theorem statusReserved_mkStatus (c : BitVec 8) (f : Bool) (o : BitVec 2) : statusReserved (mkStatus c f o) = 0 := by
  ext k hk
  have h : o.getLsbD (3 + k) = false := BitVec.getLsbD_of_ge _ _ (by omega)
  simp [statusReserved, mkStatus, ← BitVec.getLsbD_eq_getElem, show 3 + k < 8 by omega, h,
    show ¬3 + k - 2 = 0 by omega]

theorem statusCause_mkStatus (c : BitVec 8) (f : Bool) (o : BitVec 2) : statusCause (mkStatus c f o) = c := by
  ext k hk
  have h : o.getLsbD (8 + k) = false := BitVec.getLsbD_of_ge _ _ (by omega)
  simp [statusCause, mkStatus, ← BitVec.getLsbD_eq_getElem, h, show 8 + k < 16 by omega, show k < 16 by omega,
    show ¬8 + k - 2 = 0 by omega]
  exact fun _ => hk

@[simp] theorem statusOutcome_recordOutcome (o : RequestOutcome) (v : BitVec 16) :
    statusOutcome (recordOutcome o v) = outcomeCode o := statusOutcome_mkStatus ..

@[simp] theorem statusFaultSeen_recordOutcome (o : RequestOutcome) (v : BitVec 16) :
    statusFaultSeen (recordOutcome o v) = (statusFaultSeen v || outcomeIsBad o) := statusFaultSeen_mkStatus ..

@[simp] theorem statusReserved_recordOutcome (o : RequestOutcome) (v : BitVec 16) :
    statusReserved (recordOutcome o v) = 0 := statusReserved_mkStatus ..

@[simp] theorem statusCause_recordOutcome (o : RequestOutcome) (v : BitVec 16) :
    statusCause (recordOutcome o v) = causeCode o := statusCause_mkStatus ..

end Sys2Proof.Machine
end

