-- ==== Sys2Proof/Laws/Exec.lean ====
section
/-! SUPPORT. One description of all nine requests: what each needs of the windows, the write list it commits, and when it
faults; and that the list depends on nothing but the configuration and the bytes of `S` below `SrcReq`. -/

namespace Sys2Proof.Machine

/-- `SrcReq` of a request (R162). -/
def requestSrcReq : Instr → Nat
  | .rgb565 w h | .bgr565 w h | .bgra4444 w h | .bgra5551 w h | .bgrx5551 w h => srcReqPacked w h
  | .dxt1 w h | .dxt1OneBitAlpha w h => srcReqBlock8 w h
  | .dxt3 w h | .dxt5 w h => srcReqBlock16 w h

/-- `DstReq` of a request (R163). -/
def requestDstReq : Instr → Nat
  | .rgb565 w h | .bgr565 w h | .bgra4444 w h | .bgra5551 w h | .bgrx5551 w h => dstReqPacked w h
  | .dxt1 w h | .dxt1OneBitAlpha w h | .dxt3 w h | .dxt5 w h => dstReqDxt w h

/-- The write list that a request commits (R44). -/
def requestList (cfg : Config) (src : Memory) : Instr → WriteList
  | .rgb565 w h          => packedList pixelRgb565 w h src
  | .bgr565 w h          => packedList pixelBgr565 w h src
  | .bgra4444 w h        => packedList pixelBgra4444 w h src
  | .bgra5551 w h        => packedList pixelBgra5551 w h src
  | .bgrx5551 w h        => packedList pixelBgrx5551 w h src
  | .dxt1 w h            => dxt1List 255 w h cfg src
  | .dxt1OneBitAlpha w h => dxt1List 0 w h cfg src
  | .dxt3 w h            => dxt3List w h cfg src
  | .dxt5 w h            => dxt5List w h cfg src

/-- A request has a pixel that selects the unset alpha entry (R138). -/
def requestUnset (cfg : Config) (src : Memory) : Instr → Prop
  | .dxt5 w h => ∃ q ∈ blockGrid w h, blockUnset cfg (sourceBlock src 16 (blockIndex w q.1 q.2))
  | _         => False

theorem exec_srcRange {i : Instr} {s : State} (h : s.srcLen < requestSrcReq i) :
    exec i s = .next (s.endFault .srcRange) := by
  cases i <;> exact runRequest_srcRange _ _ h

theorem exec_dstRange {i : Instr} {s : State} (hs : requestSrcReq i ≤ s.srcLen) (hd : s.dstLen < requestDstReq i) :
    exec i s = .next (s.endFault .dstRange) := by
  cases i <;> exact runRequest_dstRange _ hs hd

theorem exec_unset {i : Instr} {s : State} (hs : requestSrcReq i ≤ s.srcLen) (hd : requestDstReq i ≤ s.dstLen)
    (hu : requestUnset s.cfg s.src i) : exec i s = .next (s.endFault .alpha7Unset) := by
  cases i with
  | dxt5 w h => exact execDxt5_unset hs hd hu
  | _ => exact hu.elim

theorem exec_done {i : Instr} {s : State} (hs : requestSrcReq i ≤ s.srcLen) (hd : requestDstReq i ≤ s.dstLen)
    (hu : ¬requestUnset s.cfg s.src i) : exec i s = .next (s.endDone (requestList s.cfg s.src i)) := by
  cases i with
  | dxt5 w h => exact execDxt5_done hs hd fun q hq hb => hu ⟨q, hq, hb⟩
  | dxt3 w h => exact execDxt3_done hs hd
  | dxt1 w h => exact execDxt1_done hs hd
  | dxt1OneBitAlpha w h => exact execDxt1OneBitAlpha_done hs hd
  | _ => exact runPacked_done hs hd

/-- No entry of a write list is at or beyond `DstReq` (R163). -/
theorem requestList_lt {cfg : Config} {src : Memory} {i : Instr} {c : Host.Cell} (hc : c ∈ requestList cfg src i) :
    c.1 < requestDstReq i := by
  cases i with
  | dxt5 w h => exact Writes.lt (writes_dxt5List _ _ _ _) hc
  | dxt3 w h => exact Writes.lt (writes_dxt3List _ _ _ _) hc
  | dxt1 w h => exact Writes.lt (writes_dxt1List _ _ _ _ _) hc
  | dxt1OneBitAlpha w h => exact Writes.lt (writes_dxt1List _ _ _ _ _) hc
  | _ => exact packedList_lt hc

/-! ### Which source bytes a request reads (R162) -/

theorem packedList_congr {P : Byte → Byte → Pixel} {w h : Nat} {src src' : Memory}
    (e : ∀ o < srcReqPacked w h, src'.read o = src.read o) : packedList P w h src' = packedList P w h src := by
  have e : ∀ o < 2 * (w * h), src'.read o = src.read o := by simpa [srcReqPacked, Nat.mul_assoc] using e
  refine List.flatMap_congr fun i hi => ?_
  have hi := List.mem_range.1 hi
  rw [e (2 * i) (by omega), e (2 * i + 1) (by omega)]

theorem sourceBlock_congr {n w h bX bY : Nat} {src src' : Memory} (hx : bX < ceil4 w) (hy : bY < ceil4 h)
    (e : ∀ o < n * ceil4 w * ceil4 h, src'.read o = src.read o) :
    sourceBlock src' n (blockIndex w bX bY) = sourceBlock src n (blockIndex w bX bY) := by
  refine List.map_congr_left fun k hk => e _ ?_
  have hk := List.mem_range.1 hk
  have h1 : n * (blockIndex w bX bY + 1) ≤ n * (ceil4 w * ceil4 h) := Nat.mul_le_mul_left _ (blockIndex_lt hx hy)
  rw [Nat.mul_add, Nat.mul_one] at h1
  rw [Nat.mul_assoc]
  omega

theorem blocks_congr {n w h : Nat} {src src' : Memory} {f : List Byte → Nat × Nat → WriteList}
    (e : ∀ o < n * ceil4 w * ceil4 h, src'.read o = src.read o) :
    ((blockGrid w h).flatMap fun q => f (sourceBlock src' n (blockIndex w q.1 q.2)) q) =
      (blockGrid w h).flatMap fun q => f (sourceBlock src n (blockIndex w q.1 q.2)) q := by
  refine List.flatMap_congr fun q hq => ?_
  obtain ⟨bX, bY⟩ := q
  obtain ⟨hx, hy⟩ := mem_blockGrid.1 hq
  rw [sourceBlock_congr hx hy e]

/-- A write list depends on no byte of `S` at or beyond `SrcReq`. -/
theorem requestList_congr {cfg : Config} {src src' : Memory} {i : Instr}
    (e : ∀ o < requestSrcReq i, src'.read o = src.read o) : requestList cfg src' i = requestList cfg src i := by
  cases i with
  | dxt5 w h => exact blocks_congr (f := fun blk => blockList31 w (dxt5Pixel cfg blk)) e
  | dxt3 w h => exact blocks_congr (f := fun blk => blockList31 w (dxt3Pixel cfg blk)) e
  | dxt1 w h => exact blocks_congr (f := fun blk => blockList4 w (dxt1Pixel 255 cfg blk)) e
  | dxt1OneBitAlpha w h => exact blocks_congr (f := fun blk => blockList4 w (dxt1Pixel 0 cfg blk)) e
  | _ => exact packedList_congr e

/-- Whether an unset entry is selected depends on no byte of `S` at or beyond `SrcReq`. -/
theorem requestUnset_congr {cfg : Config} {src src' : Memory} {i : Instr}
    (e : ∀ o < requestSrcReq i, src'.read o = src.read o) : requestUnset cfg src' i ↔ requestUnset cfg src i := by
  cases i with
  | dxt5 w h =>
    refine exists_congr fun q => and_congr_right fun hq => ?_
    obtain ⟨bX, bY⟩ := q
    obtain ⟨hx, hy⟩ := mem_blockGrid.1 hq
    rw [sourceBlock_congr hx hy e]
  | _ => exact Iff.rfl

end Sys2Proof.Machine
end

