-- ==== Sys2Proof/Laws/PerInstr.lean ====
section
/-! SUPPORT. Statements made once for each request, as syntax. -/

namespace Sys2Proof.Laws.EncodeFields

/-- The word of a request holds its format code and its sizes in the fields of R61, with the reserved fields 0 (R68). -/
def Statement (i : Instr) : Prop :=
  cmdFmt (encode i) = fmtCode i ∧ cmdRsv0 (encode i) = 0 ∧ cmdWidth (encode i) = BitVec.ofNat 16 i.width ∧
    cmdHeight (encode i) = BitVec.ofNat 16 i.height ∧ cmdRsv1 (encode i) = 0

theorem all (i : Instr) : Statement i :=
  ⟨cmdFmt_encode i, cmdRsv0_encode i, cmdWidth_encode i, cmdHeight_encode i, cmdRsv1_encode i⟩

theorem rgb565 (w h : Nat) : Statement (.rgb565 w h) := all _
theorem dxt1 (w h : Nat) : Statement (.dxt1 w h) := all _
theorem dxt3 (w h : Nat) : Statement (.dxt3 w h) := all _
theorem dxt5 (w h : Nat) : Statement (.dxt5 w h) := all _
theorem bgr565 (w h : Nat) : Statement (.bgr565 w h) := all _
theorem bgrx5551 (w h : Nat) : Statement (.bgrx5551 w h) := all _
theorem bgra4444 (w h : Nat) : Statement (.bgra4444 w h) := all _
theorem dxt1OneBitAlpha (w h : Nat) : Statement (.dxt1OneBitAlpha w h) := all _
theorem bgra5551 (w h : Nat) : Statement (.bgra5551 w h) := all _

end Sys2Proof.Laws.EncodeFields
end

