-- ==== Sys2Proof/Tests/Slice0.lean ====
section
/-! SUPPORT. Tests against the spec's vectors (spec/95_test_vectors.md, sections named at each test), and for every
statement with hypotheses a named witness that meets them. -/

namespace Sys2Proof.Tests

open Sys2Proof.Machine Sys2Proof.Claims

/-! ### Helpers -/

/-- The defaults of R5 to R8 but for `WRITE_ORDER = REFERENCE`, the configuration of the vectors. -/
def refCfg : Config := { Config.specDefault with writeOrder := .reference }

/-- A request in progress: `S` holds the given bytes, `SRC_LEN` is their number. -/
def stateWith (cmd : BitVec 64) (src : List Byte) (dstLen : Nat) : State :=
  { State.reset with
    src := Memory.ofCells ((List.range src.length).zip src)
    cmd := cmd
    srcLen := src.length
    dstLen := dstLen
    inProgress := true
    cfg := refCfg }

/-- STATUS and `n` bytes of `D` from offset `o`, after a step that answers a next state. -/
def seen (r : Host.Outcome State Fault Refusal) (o n : Nat) : Option (BitVec 16 × List Byte) :=
  match r with
  | .next t => some (t.readStatus, (List.range n).map fun k => t.dst.read (o + k))
  | _       => none

/-- STATUS after a step that answers a next state. -/
def seenStatus (r : Host.Outcome State Fault Refusal) : Option (BitVec 16) := (seen r 0 0).map Prod.fst

/-! ### WellFormed smoke -/

theorem test_wellFormed_accepts_largest : (Instr.dxt5 65535 65535).wellFormed = true := by decide

theorem test_wellFormed_refuses_wide : (Instr.rgb565 65536 1).wellFormed = false := by decide

theorem test_wellFormed_refuses_tall : (Instr.dxt1 1 65536).wellFormed = false := by decide

/-! ### Decode: the fields of R61, `RSV1 ++ HEIGHT ++ WIDTH ++ RSV0 ++ FMT`, with the codes of R62 -/

theorem test_decode_rgb565 :
    decode (0x0000#16 ++ (0x0002#16 ++ (0x0003#16 ++ (0x00#8 ++ 0b00000100#8)))) = .ok (.rgb565 3 2) := by decide

theorem test_decode_dxt1 :
    decode (0x0000#16 ++ (0x0004#16 ++ (0x0006#16 ++ (0x00#8 ++ 0b00001101#8)))) = .ok (.dxt1 6 4) := by decide

theorem test_decode_dxt3 :
    decode (0x0000#16 ++ (0x0005#16 ++ (0x0005#16 ++ (0x00#8 ++ 0b00001110#8)))) = .ok (.dxt3 5 5) := by decide

theorem test_decode_dxt5 :
    decode (0x0000#16 ++ (0x0004#16 ++ (0x0010#16 ++ (0x00#8 ++ 0b00001111#8)))) = .ok (.dxt5 16 4) := by decide

theorem test_decode_bgr565 :
    decode (0x0000#16 ++ (0x8000#16 ++ (0x0001#16 ++ (0x00#8 ++ 0b00010001#8)))) = .ok (.bgr565 1 32768) := by decide

theorem test_decode_bgrx5551 :
    decode (0x0000#16 ++ (0xFFFF#16 ++ (0x0000#16 ++ (0x00#8 ++ 0b00010010#8)))) = .ok (.bgrx5551 0 65535) := by decide

theorem test_decode_bgra4444 :
    decode (0x0000#16 ++ (0x0007#16 ++ (0x0000#16 ++ (0x00#8 ++ 0b00010011#8)))) = .ok (.bgra4444 0 7) := by decide

theorem test_decode_dxt1OneBitAlpha :
    decode (0x0000#16 ++ (0x0004#16 ++ (0x0004#16 ++ (0x00#8 ++ 0b00010100#8)))) = .ok (.dxt1OneBitAlpha 4 4) := by
  decide

theorem test_decode_bgra5551 :
    decode (0x0000#16 ++ (0x0100#16 ++ (0xFFFF#16 ++ (0x00#8 ++ 0b00010101#8)))) = .ok (.bgra5551 65535 256) := by
  decide

/-- V13: the palette's code is refused for its format, a word with both defects for its reserved bits. -/
theorem test_decode_refuses :
    decode 0x0000000100010007 = .error .badFormat ∧ decode 0x00000001000101FF = .error .reservedBits ∧
      decode 0x0001000100010004 = .error .reservedBits := by decide

theorem test_decodeTableWord : decodeTableWord 64 0x000000040006000D = some (.dxt1 6 4) ∧
    decodeTableWord 16 0x000F = some (.dxt5 0 0) ∧ decodeTableWord 64 0x0001000100010004 = none := by decide

theorem test_withFetchWord :
    seenStatus (step (State.reset.withFetchWord 64 0x0000000000000014)) = some 0x0001 ∧
      seenStatus (step (State.reset.withFetchWord 64 0x0000000000000007)) = some 0x1007 := by decide

/-- R68, R69: the statements and words of V13. -/
theorem test_assemble : assemble "DXT1" 6 4 = some 0x000000040006000D ∧
    assemble "DXT1_ONEBITALPHA" 4 4 = some 0x0000000400040014 ∧ assemble "RGBA8888" 1 1 = none ∧
    disassemble 0x0000000100010004 = .statement (.rgb565 1 1) ∧
    disassemble 0x0000000100010007 = .rawCmd 0x0000000100010007 := by decide

/-- R68's own example, and a raw word of V13. -/
theorem test_assembleText : assembleText "DECODE DXT1, 4, 4".toList = some 0x000000040004000D ∧
    assembleText "DECODE RGB565, 0x10, 65535".toList = some 0x0000FFFF00100004 ∧
    assembleText ".cmd 0x0000000100010007".toList = some 0x0000000100010007 ∧
    assembleText "DECODE DXT1, 4, 65536".toList = none ∧ assembleText "DECODE DXT1, 4".toList = none := by decide

theorem test_disassembly_digits : hexDigits 0x00000001000101FF = "00000001000101FF".toList := by decide

/-! ### Primitives -/

/-- V1. -/
theorem test_ups : ups 5 0x20 = 0x21 ∧ ups 5 0xF8 = 0xFF ∧ ups 6 0x80 = 0x82 ∧ ups 0 0x5A = 0x5A ∧ ups 6 0x81 = 0x83 := by
  decide

/-- V2. -/
theorem test_nibbles : nibLo 0x5A = 0xAA ∧ nibHi 0x5A = 0x55 ∧ nibLo 0xF0 = 0x00 ∧ nibHi 0x87 = 0x88 := by decide

/-- V3. -/
theorem test_unpack565 : unpack565 0x34 0x12 = (165, 69, 16) ∧ unpack565 0x55 0xAA = (173, 73, 173) := by decide

/-- V5. -/
theorem test_gt565 : gt565 0x01 0x00 0x00 0x01 = true ∧ gt565 0x34 0x12 0x34 0x12 = false ∧
    gt565 0x10 0x10 0x20 0x20 = false := by decide

/-- V7. -/
theorem test_colorIndex : colorIndex .lsbFirst 0xC0 3 = 3 ∧ colorIndex .msbFirst 0xC0 0 = 3 ∧
    colorIndex .lsbFirst 0xE4 1 = 1 ∧ colorIndex .msbFirst 0xE4 1 = 2 := by decide

/-- V9. -/
theorem test_alphaIndex :
    alphaIndex .be48MsbFirst (alphaField .be48MsbFirst 0 0 0 0 0 7) 15 = 7 ∧
      alphaIndex .le48MsbFirst (alphaField .le48MsbFirst 0 0 0 0 0 7) 2 = 6 ∧
      alphaIndex .le48LsbFirst (alphaField .le48LsbFirst 0 0 0 0 0 7) 13 = 6 := by decide

/-- V8. -/
theorem test_alphaTables :
    alphaTable8 200 100 = ⟨200, 100, 185, 171, 157, 142, 128, some 114⟩ ∧
      alphaTable6 none 100 200 = ⟨100, 200, 120, 140, 160, 180, 0, none⟩ := by decide

/-! ### One request of each format -/

/-- V4, row `34 12`. -/
theorem test_step_rgb565 :
    seen (step (stateWith 0x0000000100010004 [0x34, 0x12] 4)) 0 4 = some (0x0001, [165, 69, 16, 255]) := by decide +kernel

theorem test_step_bgr565 :
    seen (step (stateWith 0x0000000100010011 [0x34, 0x12] 4)) 0 4 = some (0x0001, [16, 69, 165, 255]) := by decide +kernel

/-- V4, row `21 43`. -/
theorem test_step_bgra4444 :
    seen (step (stateWith 0x0000000100010013 [0x21, 0x43] 4)) 0 4 = some (0x0001, [51, 34, 17, 68]) := by decide +kernel

/-- V4, row `00 80`. -/
theorem test_step_bgra5551 :
    seen (step (stateWith 0x0000000100010015 [0x00, 0x80] 4)) 0 4 = some (0x0001, [0, 0, 0, 255]) := by decide +kernel

/-- V4, row `AA 55`. -/
theorem test_step_bgra5551_channels :
    seen (step (stateWith 0x0000000100010015 [0xAA, 0x55] 4)) 0 4 = some (0x0001, [173, 107, 82, 0]) := by decide +kernel

/-- V4, row `FF 7F`. -/
theorem test_step_bgrx5551 :
    seen (step (stateWith 0x0000000100010012 [0xFF, 0x7F] 4)) 0 4 = some (0x0001, [255, 255, 255, 255]) := by decide +kernel

/-- The DXT1 block `01 00 00 01 E4 E4 E4 E4` of V10, four colors although `w0 < w1`; its last row. -/
theorem test_step_dxt1 :
    seen (step (stateWith 0x000000040004000D [0x01, 0x00, 0x00, 0x01, 0xE4, 0xE4, 0xE4, 0xE4] 64)) 48 16 =
      some (0x0001, [0, 0, 8, 255, 0, 32, 0, 255, 0, 10, 5, 255, 0, 21, 2, 255]) := by decide +kernel

/-- L3-P4 with `DST_LEN = 104`: offsets 24 (won by the edge block) and 96 (beyond `4·W·H`). -/
theorem test_step_dxt1_edge :
    seen (step (stateWith 0x000000040006000D
      [0x00, 0xF8, 0x00, 0xF8, 0, 0, 0, 0, 0x1F, 0x00, 0x1F, 0x00, 0, 0, 0, 0] 104)) 24 12 =
      some (0x0001, [0, 0, 255, 255, 0, 0, 255, 255, 255, 0, 0, 255]) := by decide +kernel

/-- The same block of V10 as DXT1_ONEBITALPHA. -/
theorem test_step_dxt1OneBitAlpha :
    seen (step (stateWith 0x0000000400040014 [0x01, 0x00, 0x00, 0x01, 0xE4, 0xE4, 0xE4, 0xE4] 64)) 48 16 =
      some (0x0001, [0, 0, 8, 255, 0, 32, 0, 255, 0, 10, 5, 255, 0, 21, 2, 0]) := by decide +kernel

/-- V11, its last row. -/
theorem test_step_dxt3 :
    seen (step (stateWith 0x000000040004000E [0x10, 0x32, 0x54, 0x76, 0x98, 0xBA, 0xDC, 0xFE, 0x00, 0x00, 0xFF, 0xFF,
      0xE4, 0xE4, 0xE4, 0xE4] 64)) 48 16 =
      some (0x0001, [0, 0, 0, 204, 255, 255, 255, 221, 85, 85, 85, 238, 170, 170, 170, 255]) := by decide +kernel

/-- L3-P3, step 1, its second row. -/
theorem test_step_dxt5 :
    seen (step (stateWith 0x000000040004000F [0xFF, 0x00, 0x05, 0x39, 0x77, 0x05, 0x39, 0x77, 0x1F, 0x00, 0x00, 0xF8,
      0xE4, 0xE4, 0xE4, 0xE4] 64)) 16 16 =
      some (0x0001, [0, 0, 255, 145, 255, 0, 0, 109, 85, 0, 170, 72, 170, 0, 85, 36]) := by decide +kernel

/-- The block of V12 whose pixel 7 selects the unset entry. -/
def unsetBlock : List Byte := [0x00, 0xFF, 0x05, 0x39, 0x77, 0x05, 0x39, 0x77, 0, 0, 0, 0, 0, 0, 0, 0]

/-- V12, `DXT5_ALPHA7 = none` and `some 255`: pixels 4 to 7. -/
theorem test_step_dxt5_entry7 :
    seenStatus (step (stateWith 0x000000040004000F unsetBlock 64)) = some 0x0306 ∧
      seen (step { stateWith 0x000000040004000F unsetBlock 64 with
        cfg := { refCfg with dxt5Alpha7 := some 255 } }) 16 16 =
        some (0x0001, [0, 0, 0, 153, 0, 0, 0, 204, 0, 0, 0, 0, 0, 0, 0, 255]) := by decide +kernel

/-! ### Outcomes, the sticky bit, reset -/

/-- V13: the outcomes of its request table that are not DONE. -/
theorem test_outcomes :
    seenStatus (step (stateWith 0x0000000100010004 [1] 4)) = some 0x0106 ∧
      seenStatus (step (stateWith 0x0000000100010004 [1, 2] 3)) = some 0x0206 ∧
      seenStatus (step (stateWith 0x0000000100010004 [1] 3)) = some 0x0106 ∧
      seenStatus (step (stateWith 0x0000000100010007 [1, 2] 4)) = some 0x1007 ∧
      seenStatus (step (stateWith 0x00000001000101FF [1, 2] 4)) = some 0x1107 := by decide +kernel

/-- L3-P3, step 4: DONE keeps the sticky bit. -/
theorem test_faultSeen_sticky :
    seenStatus (step { stateWith 0x000000040000000F [] 0 with status := 0x1007 }) = some 0x0005 := by decide +kernel

/-- R180: reset clears STATUS and leaves `D` alone when no request is in progress. -/
theorem test_reset_event :
    seen (step { State.reset with status := 0x0306, dst := [(2, 7)], events := [.reset] }) 0 3 =
      some (0x0000, [0, 0, 7]) := by decide +kernel

/-! ### Witnesses: the hypotheses of each statement are met -/

theorem test_witness_EncodeThenDecodeGivesTheRequestBack :
    (Instr.bgra5551 65535 65535).wellFormed = true ∧ (Instr.dxt5 0 0).wellFormed = true := by decide

theorem test_witness_DecodedWordEncodesBack : decode 0x00000100FFFF0015 = .ok (.bgra5551 65535 256) := by decide

theorem test_witness_DisassemblyAssemblesBack :
    (bits 0x0000FFFF00000012 8 8 = 0 ∧ bits 0x0000FFFF00000012 48 16 = 0 ∧ bits 0x0000FFFF00000012 0 8 ∈ fmtCodes) ∧
      bits 0x0000000100010016 0 8 ∉ fmtCodes ∧ bits 0x0001000000000004 48 16 ≠ 0 ∧ bits 0x8004 8 8 ≠ 0 := by decide

/-- A request that decodes, in progress. -/
def running : State := stateWith 0x0000000100010004 [0x34, 0x12] 4

theorem test_witness_StepRunsTheDecodedRequest : Executing running ∧ decode running.cmd = .ok (.rgb565 1 1) :=
  ⟨⟨rfl, rfl⟩, by decide⟩

theorem test_witness_EveryStepAnswersNext : Executing running ∧ ¬Executing State.reset :=
  ⟨⟨rfl, rfl⟩, fun h => absurd h.1 (by decide)⟩

theorem test_witness_RefusedRequestTouchesNothing :
    Executing (stateWith 0x0001000100010004 [] 0) ∧ bits 0x0001000100010004 48 16 ≠ 0 ∧
      Executing (stateWith 0x8004 [] 0) ∧ bits 0x8004 8 8 ≠ 0 ∧
      Executing (stateWith 0x16 [] 0) ∧ bits 0x16 8 8 = 0 ∧ bits 0x16 48 16 = 0 ∧ bits 0x16 0 8 ∉ fmtCodes :=
  ⟨⟨rfl, rfl⟩, by decide, ⟨rfl, rfl⟩, by decide, ⟨rfl, rfl⟩, by decide, by decide, by decide⟩

/-- One state for each outcome of the priority order, each with every later condition true where it can be. -/
theorem test_witness_RequestEndsByPriority :
    Executing (stateWith 0x000000040004000F unsetBlock 64) ∧ Executing (stateWith 0x00000001000101FF [] 0) ∧
      bits 0x00000001000101FF 8 8 ≠ 0 ∧ bits 0x00000001000101FF 0 8 ∉ fmtCodes ∧
      bits 0x0000000100010007 8 8 = 0 ∧ bits 0x0000000100010007 0 8 ∉ fmtCodes ∧
      (stateWith 0x000000040004000F (unsetBlock.take 15) 63).srcLen < srcReqOf 0x0F 4 4 ∧
      63 < dstReqOf 0x0F 4 4 ∧ ¬(stateWith 0x000000040004000F unsetBlock 63).srcLen < srcReqOf 0x0F 4 4 ∧
      ¬64 < dstReqOf 0x0F 4 4 ∧ InGrid 4 4 0 0 3 1 3 ∧
      dxt5AlphaByte (stateWith 0x000000040004000F unsetBlock 64) 4 0 0 3 1 = none ∧
      (∀ x < 4, ∀ y < 4, dxt5AlphaByte (stateWith 0x000000040004000F (0x01 :: 0x00 :: unsetBlock.drop 2) 64) 4 0 0 x y
        ≠ none) := by
  unfold Executing InGrid; decide

theorem test_witness_FaultKeepsEverythingButTheWindow :
    running.dst.wf = true ∧
      (stateWith 0 [1, 2, 3, 4, 5, 6, 7] 64).srcLen < srcNeed (.dxt1 4 4) ∧
      srcNeed (.dxt1 6 4) ≤ (stateWith 0 (unsetBlock) 96).srcLen ∧ 103 < dstNeed (.dxt1 6 4) ∧
      isDxt (.dxt5 4 4) ∧ srcNeed (.dxt5 4 4) ≤ (stateWith 0 unsetBlock 64).srcLen ∧ dstNeed (.dxt5 4 4) ≤ 64 ∧
      InGrid 4 4 0 0 3 1 3 ∧ dxtByte (.dxt5 4 4) (stateWith 0 unsetBlock 64) 0 0 3 1 3 = none := by
  unfold isDxt InGrid; decide

theorem test_witness_IssuedRequestEndsInTwoSteps :
    let s := { State.reset with events := [.request 0x04 3 70000, .loadSource []], cfg := { refCfg with lenBits := some 16 } }
    s.inProgress = false ∧ s.events = .request 0x04 3 70000 :: [.loadSource []] ∧
      (∀ e, ([.loadSource []] : List HostEvent).head? = some e → e.isReset = false) :=
  ⟨rfl, rfl, fun _ h => by obtain rfl := Option.some.inj h; rfl⟩

theorem test_witness_StatusIsWrittenAtTheEndOfARequest :
    Executing running ∧ ¬Executing State.reset ∧ State.reset.resetNext = false ∧
      step State.reset = .next State.reset ∧
      statusOutcome ({ State.reset with status := 0x0306 } : State).status ≠ 0 :=
  ⟨⟨rfl, rfl⟩, fun h => absurd h.1 (by decide), rfl, rfl, by decide⟩

theorem test_witness_FaultSeenStaysUntilReset :
    let s := { State.reset with status := 0x0306, events := [.request 0 0 0] }
    statusFaultSeen s.status = true ∧ (∀ e ∈ s.events, e.isReset = false) ∧
      Sys2Proof.core.run 0 s = .next s :=
  ⟨by decide, by decide, rfl⟩

theorem test_witness_ResetClearsStatusAndKeepsTheWindows :
    let s := { running with events := [.reset] }
    s.dst.wf = true ∧ s.events = .reset :: [] ∧ s.inProgress = true ∧ s.dstLen ≤ 4 ∧
      ({ State.reset with events := [.reset] } : State).inProgress = false :=
  ⟨by decide, rfl, rfl, by decide, rfl⟩

theorem test_witness_StepKeepsTheInvariant : State.reset.Inv ∧ running.Inv ∧ step State.reset = .next State.reset :=
  ⟨by decide, by decide, rfl⟩

theorem test_witness_BlockNeverWritesSource :
    (∃ t, exec (.rgb565 1 1) running = .next t) ∧ Executing running ∧
      ({ running with events := [.reset] } : State).resetNext = true :=
  ⟨⟨_, rfl⟩, ⟨rfl, rfl⟩, rfl⟩

theorem test_witness_ResultDoesNotDependOnDestination :
    running.dst.wf = true ∧ Memory.wf [(0, 1), (9, 255)] = true ∧
      ∃ t, exec (.rgb565 1 1) running = .next t ∧ statusOutcome t.status = 1 :=
  ⟨by decide, by decide, _, rfl, by decide⟩

theorem test_witness_SourceBeyondTheRequirementIsNotRead :
    running.dst.wf = true ∧ (∀ o, o < srcNeed (.rgb565 1 1) → Memory.read [(0, 0x34), (1, 0x12), (2, 9)] o =
      running.src.read o) ∧ Memory.read [(0, 0x34), (1, 0x12), (2, 9)] 2 ≠ running.src.read 2 ∧
      ∃ t, exec (.rgb565 1 1) running = .next t ∧ statusOutcome t.status = 1 :=
  ⟨by decide, by decide, by decide, _, rfl, by decide⟩

theorem test_witness_EqualRequestsWriteEqualBytes :
    let s := running
    let s' := { running with src := running.src ++ [(2, 9)], status := 0x0306, draws := 5 }
    s.dst.wf = true ∧ s'.dst.wf = true ∧ s'.cfg = s.cfg ∧ s'.srcLen = s.srcLen ∧ s'.dstLen = s.dstLen ∧
      (∀ o, o < srcNeed (.rgb565 1 1) → s'.src.read o = s.src.read o) ∧ (∀ o, s'.dst.read o = s.dst.read o) ∧
      WritesDetermined (.rgb565 1 1) s ∧ ∃ t, exec (.rgb565 1 1) s = .next t ∧ statusOutcome t.status = 1 :=
  ⟨by decide, by decide, rfl, rfl, rfl, by decide, fun _ => rfl, .inl rfl, _, rfl, by decide⟩

/-- What `WrittenAlike` speaks of: an offset with a value, of each kind of request, and one with none. -/
theorem test_witness_WritesByte :
    WritesByte (.rgb565 1 1) running 0 165 ∧ WritesByte (.dxt1 4 4) (stateWith 0 [0, 0xF8, 0, 0, 0, 0, 0, 0] 64) 0 255 ∧
      ∀ v, ¬WritesByte (.rgb565 1 1) running 4 v := by
  refine ⟨.inr ⟨by unfold isDxt; decide, 0, by decide, 0, by decide, rfl, by decide⟩,
    .inl ⟨by unfold isDxt; decide, 0, 0, 0, 0, 0, by unfold InGrid; decide, rfl, by decide⟩, ?_⟩
  rintro v (⟨h, -⟩ | ⟨-, p, hp, ch, hch, e, -⟩)
  · exact absurd h (by unfold isDxt; decide)
  · have : p < 1 := hp
    omega

theorem test_witness_RequestChangesOnlyStatusAndWindow :
    ∃ t, exec (.rgb565 1 1) running = .next t ∧ statusOutcome t.status = 1 ∧ dstNeed (.rgb565 1 1) ≤ 4 :=
  ⟨_, rfl, by decide, by decide⟩

theorem test_witness_ZeroSizedRequestWritesNothing : (Instr.dxt5 0 4).width = 0 ∧ (Instr.bgra4444 7 0).height = 0 := by
  decide

theorem test_witness_CommitGivesEachByteOneOfItsValues :
    Memory.wf [(3, 1)] = true ∧ ((1, 5) : Host.Cell) ∈ ([(1, 5), (2, 6), (1, 7)] : WriteList) ∧
      ([(1, 5), (2, 6), (1, 7)] : WriteList) = [(1, 5), (2, 6)] ++ (1, 7) :: [] ∧
      (∀ v, ((3, v) : Host.Cell) ∉ ([(1, 5), (2, 6), (1, 7)] : WriteList)) := by
  refine ⟨by decide, by decide, rfl, fun v h => ?_⟩
  simp at h

theorem test_witness_WindowHoldsWhatTheHostPlaced :
    let s := { State.reset with events := [.loadSource [(0, 5), (0, 7)]] }
    let s' := { State.reset with events := [.loadDest [(0, 5), (0, 7)]] }
    s.inProgress = false ∧ s.events = .loadSource [(0, 5), (0, 7)] :: [] ∧ s'.inProgress = false ∧
      s'.events = .loadDest [(0, 5), (0, 7)] :: [] ∧
      ([(0, 5), (0, 7)] : List Host.Cell) = [(0, 5)] ++ (0, 7) :: [] ∧
      (∀ v, ((1, v) : Host.Cell) ∉ ([(0, 5), (0, 7)] : List Host.Cell)) := by
  refine ⟨rfl, rfl, rfl, rfl, rfl, fun v h => ?_⟩
  simp at h

theorem test_witness_ApproximateComparisonAgainstNumeric :
    le16 0x01 0x00 > le16 0x00 0x00 ∧ le16 0x34 0x12 = le16 0x34 0x12 ∧
      (0x1F : Byte).toNat > (0x00 : Byte).toNat ∧ (0x00 : Byte).toNat < (0xF8 : Byte).toNat := by decide

theorem test_witness_Dxt5BlockBuildsItsAlphaTable :
    (blockByte [255, 0] 0).toNat ≥ (blockByte [255, 0] 1).toNat ∧ (blockByte [9, 9] 0).toNat = (blockByte [9, 9] 1).toNat ∧
      (blockByte [0, 1] 0).toNat < (blockByte [0, 1] 1).toNat := by decide

/-- The hypotheses of the five packed-16 statements: windows that just suffice, and a size of 0. -/
theorem test_witness_PackedDecodesEveryPixel :
    running.dst.wf = true ∧ 2 * 1 * 1 ≤ running.srcLen ∧ 4 * 1 * 1 ≤ running.dstLen ∧ 2 * 0 * 9 ≤ running.srcLen ∧
      4 * 0 * 9 ≤ running.dstLen := by decide

/-- A DXT1 image of width 6, windows that just suffice. -/
def edgeState : State :=
  stateWith 0x000000040006000D [0x00, 0xF8, 0x00, 0xF8, 0, 0, 0, 0, 0x1F, 0x00, 0x1F, 0x00, 0, 0, 0, 0] 104

theorem test_witness_Dxt1DecodesEveryBlock : edgeState.dst.wf = true ∧ DxtReady (.dxt1 6 4) edgeState :=
  ⟨by decide, by decide, by decide, fun _ _ _ _ _ _ => by simp [dxtByte]⟩

theorem test_witness_Dxt1OneBitAlphaDecodesEveryBlock :
    edgeState.dst.wf = true ∧ DxtReady (.dxt1OneBitAlpha 6 4) edgeState :=
  ⟨by decide, by decide, by decide, fun _ _ _ _ _ _ => by simp [dxtByte]⟩

theorem test_witness_Dxt3DecodesEveryBlock : edgeState.dst.wf = true ∧ DxtReady (.dxt3 1 3) edgeState :=
  ⟨by decide, by decide, by decide, fun _ _ _ _ _ _ => by simp only [dxtByte]; split <;> simp⟩

/-- The block of V12 in the six-value mode with indices 0 to 6 and no 7. -/
def sixState : State :=
  stateWith 0x000000040004000F [0x00, 0xFF, 0x05, 0x39, 0x76, 0x05, 0x39, 0x76, 0, 0, 0, 0, 0, 0, 0, 0] 64

theorem test_witness_Dxt5DecodesEveryBlock : sixState.dst.wf = true ∧ DxtReady (.dxt5 4 4) sixState := by
  refine ⟨by decide, by decide, by decide, fun bX bY x y ch hg => ?_⟩
  have hall : ∀ x < 4, ∀ y < 4, ∀ ch < 4, dxtByte (.dxt5 4 4) sixState 0 0 x y ch ≠ none := by decide
  obtain ⟨hbX, hbY, hx, hy, hch⟩ := hg
  obtain rfl : bX = 0 := Nat.lt_one_iff.1 hbX
  obtain rfl : bY = 0 := Nat.lt_one_iff.1 hbY
  exact hall x hx y hy ch hch

theorem test_witness_AlignedWidthImageDecodesInPlace :
    isDxt (.dxt5 4 4) ∧ sixState.dst.wf = true ∧ (Instr.dxt5 4 4).width % 4 = 0 ∧ DxtReady (.dxt5 4 4) sixState :=
  ⟨by unfold isDxt; decide, by decide, by decide, test_witness_Dxt5DecodesEveryBlock.2⟩

/-- Widths 6 and 1: a pixel the edge block wins, one it does not, and overflow of the last row. -/
theorem test_witness_EdgeBlockWinsUnderReferenceOrder :
    isDxt (.dxt1 6 4) ∧ edgeState.dst.wf = true ∧ edgeState.cfg.writeOrder = .reference ∧
      DxtReady (.dxt1 6 4) edgeState ∧ 1 + 6 < 4 * ceilDiv4 6 ∧ ¬2 + 6 < 4 * ceilDiv4 6 ∧
      DxtReady (.dxt1 1 5) edgeState ∧ 2 + 1 < 4 * ceilDiv4 1 :=
  ⟨by unfold isDxt; decide, by decide, rfl, test_witness_Dxt1DecodesEveryBlock.2, by decide, by decide,
    ⟨by decide, by decide, fun _ _ _ _ _ _ => by simp [dxtByte]⟩, by decide⟩

/-- With `W = 6` column 6 of block 1, row 0, overflows onto column 0 of block 0, row 1, and is the last there. -/
theorem test_witness_LastWriteWinsUnderReferenceOrder :
    isDxt (.dxt1 6 4) ∧ edgeState.dst.wf = true ∧ edgeState.cfg.writeOrder = .reference ∧
      DxtReady (.dxt1 6 4) edgeState ∧ InGrid 6 4 1 0 2 0 3 ∧ doff 6 1 0 2 0 = doff 6 0 0 0 1 ∧
      LastAtItsOffset 6 4 1 0 2 0 := by
  refine ⟨by unfold isDxt; decide, by decide, rfl, test_witness_Dxt1DecodesEveryBlock.2, by unfold InGrid; decide,
    by decide, fun bX' bY' x' y' hg e => ?_⟩
  obtain ⟨hx, hy, hx4, hy4, -⟩ := hg
  have hbx : bX' < 2 := hx
  have hby : bY' < 1 := hy
  simp only [doff] at e
  omega

theorem test_witness_EdgeImageNeedsMoreThanItsPixels :
    let s := { edgeState with dstLen := 96 }
    isDxt (.dxt1 6 4) ∧ 0 < (Instr.dxt1 6 4).width ∧ 0 < (Instr.dxt1 6 4).height ∧ s.dstLen = 4 * 6 * 4 ∧
      srcNeed (.dxt1 6 4) ≤ s.srcLen ∧ (Instr.dxt1 6 4).width % 4 ≠ 0 ∧
      sixState.dstLen = 4 * 4 * 4 ∧ srcNeed (.dxt5 4 4) ≤ sixState.srcLen :=
  ⟨by unfold isDxt; decide, by decide, by decide, by decide, by decide, by decide, by decide, by decide⟩

/-- The block of V10 whose rows have color indices 0 to 3; its pixel `(3, 0)` has index 3. -/
def indexState : State := stateWith 0x000000040004000D [0x01, 0x00, 0x00, 0x01, 0xE4, 0xE4, 0xE4, 0xE4] 64

theorem test_witness_OneBitAlphaDiffersOnlyInAlpha :
    indexState.dst.wf = true ∧ DxtReady (.dxt1 4 4) indexState ∧ indexState.cfg.writeOrder = .reference ∧ 4 % 4 = 0 ∧
      InGrid 4 4 0 0 3 0 3 ∧ LastAtItsOffset 4 4 0 0 3 0 ∧
      colorIdx indexState.cfg.colorIndexOrder (srcAt indexState 4) 3 = 3 ∧
      colorIdx indexState.cfg.colorIndexOrder (srcAt indexState 4) 2 ≠ 3 := by
  refine ⟨by decide, ⟨by decide, by decide, fun _ _ _ _ _ _ => by simp [dxtByte]⟩, rfl, rfl, by unfold InGrid; decide,
    fun bX' bY' x' y' hg e => ?_, by decide, by decide⟩
  obtain ⟨hx, hy, hx4, hy4, -⟩ := hg
  have hbx : bX' < 1 := hx
  have hby : bY' < 1 := hy
  simp only [doff] at e
  omega

end Sys2Proof.Tests
end

section
/-! The state: what the end of a request, a reset and an event of the host do to the invariant and to STATUS; what one
step does to them; and the statements about steps that follow. -/

namespace Sys2Proof.Machine

open Sys2Proof.Claims

/-! ### The invariant -/

/-- The `STATUS` of every outcome is legal, whatever it held before (R24 to R26). -/
theorem statusLegal_recordOutcome (o : RequestOutcome) (v : BitVec 16) : statusLegal (recordOutcome o v) = true := by
  unfold recordOutcome
  generalize statusFaultSeen v = seen
  cases o with
  | done => cases seen <;> decide
  | fault c => cases c <;> cases seen <;> decide
  | refused r => cases r <;> cases seen <;> decide

/-- A latched length fits its register (R9, R65). -/
theorem lengthFits_truncLen (c : Config) (n : Nat) : lengthFits c (truncLen c n) = true := by
  unfold lengthFits truncLen
  cases c.lenBits with
  | none => rfl
  | some k => exact decide_eq_true (Nat.mod_lt _ (Nat.two_pow_pos k))

/-- The end of a request keeps the invariant, whatever its outcome. -/
theorem State.Inv.endRequest {s : State} (h : s.Inv) (o : RequestOutcome) : (s.endRequest o).Inv := by
  obtain ⟨hsrc, hdst, -, hsl, hdl⟩ := h
  exact ⟨hsrc, hdst, statusLegal_recordOutcome o s.status, hsl, hdl⟩

theorem State.Inv.scrambleDst {s : State} (h : s.Inv) : s.scrambleDst.Inv := by
  obtain ⟨hsrc, hdst, hst, hsl, hdl⟩ := h
  exact ⟨hsrc, wf_scrambleDst hdst, hst, hsl, hdl⟩

theorem State.Inv.endDone {s : State} (h : s.Inv) (wl : WriteList) : (s.endDone wl).Inv := by
  obtain ⟨hsrc, hdst, -, hsl, hdl⟩ := h
  exact ⟨hsrc, wf_endDone hdst wl, statusLegal_recordOutcome .done s.status, hsl, hdl⟩

/-- Reset makes the invariant's STATUS and lengths anew and keeps the form of the windows (R180). -/
theorem State.Inv.applyReset {s : State} (h : s.Inv) : s.applyReset.Inv := by
  obtain ⟨hsrc, hdst, -, -, -⟩ := h
  have hdst' : s.applyReset.dst.wf = true := by
    rw [State.applyReset_dst]
    split
    · exact wf_scrambleDst hdst
    · exact hdst
  refine ⟨by rwa [State.applyReset_src], hdst', rfl, ?_, ?_⟩ <;> rw [State.applyReset_cfg]
  · exact lengthFits_truncLen _ _
  · exact lengthFits_truncLen _ _

theorem State.Inv.takeEvent {s : State} (h : s.Inv) (e : HostEvent) : (s.takeEvent e).Inv := by
  obtain ⟨hsrc, hdst, hst, hsl, hdl⟩ := h
  cases e with
  | loadSource cells => exact ⟨Memory.wf_ofCells cells, hdst, hst, hsl, hdl⟩
  | loadDest cells => exact ⟨hsrc, Memory.wf_ofCells cells, hst, hsl, hdl⟩
  | request cmd a b => exact ⟨hsrc, hdst, hst, lengthFits_truncLen s.cfg a, lengthFits_truncLen s.cfg b⟩
  | reset => exact State.Inv.applyReset ⟨hsrc, hdst, hst, hsl, hdl⟩

theorem State.Inv.step {s t : State} (h : s.Inv) (hstep : step s = .next t) : t.Inv := by
  rcases step_cases hstep with ⟨-, -, ⟨r, rfl⟩ | ⟨c, rfl⟩ | ⟨wl, -, rfl⟩⟩ | ⟨es, -, rfl⟩ | ⟨-, -, rfl⟩ |
    ⟨e, es, -, -, -, rfl⟩
  · exact h.endRequest (.refused r)
  · exact h.scrambleDst.endRequest (.fault c)
  · exact h.endDone wl
  · exact State.Inv.applyReset (s := { s with events := es }) h
  · exact h
  · exact State.Inv.takeEvent (s := { s with events := es }) h e

/-! ### STATUS along a step -/

/-- Executing a request answers a next state whose `STATUS` records an outcome (R25, R160). -/
theorem execute_records (s : State) :
    ∃ (t : State) (o : RequestOutcome), s.execute = .next t ∧ t.status = recordOutcome o s.status := by
  rcases execute_cases s with ⟨r, h⟩ | ⟨c, h⟩ | ⟨wl, -, h⟩
  · exact ⟨_, _, h, State.endRefused_status r s⟩
  · exact ⟨_, _, h, State.endFault_status c s⟩
  · exact ⟨_, _, h, State.endDone_status wl s⟩

/-- Every step answers a next state (R160, R168, R181). -/
theorem step_next (s : State) : ∃ t, step s = .next t := by
  by_cases h : s.inProgress = true ∧ s.resetNext = false
  · obtain ⟨t, -, ht, -⟩ := execute_records s
    exact ⟨t, by rw [step_executing h.1 h.2, ht]⟩
  · refine ⟨_, step_hostTurn ?_⟩
    simpa only [not_and_or, Bool.not_eq_true, Bool.not_eq_false] using h

/-- Only reset, of the host's events, writes `STATUS` (R24, R180). -/
theorem takeEvent_status {e : HostEvent} (h : e ≠ .reset) (s : State) : (s.takeEvent e).status = s.status := by
  cases e with
  | reset => exact absurd rfl h
  | _ => rfl

/-- A step that is no reset records an outcome in `STATUS` where it executes a request, and keeps `STATUS` where it does
not (R25). -/
theorem step_status {s t : State} (hr : s.resetNext = false) (h : step s = .next t) :
    (Executing s ∧ ∃ o, t.status = recordOutcome o s.status) ∨ (¬Executing s ∧ t.status = s.status) := by
  rcases step_cases h with ⟨hp, -, ⟨r, rfl⟩ | ⟨c, rfl⟩ | ⟨wl, -, rfl⟩⟩ | ⟨es, he, rfl⟩ | ⟨hp, -, rfl⟩ |
    ⟨e, es, hp, -, hne, rfl⟩
  · exact .inl ⟨⟨hp, hr⟩, .refused r, rfl⟩
  · exact .inl ⟨⟨hp, hr⟩, .fault c, rfl⟩
  · exact .inl ⟨⟨hp, hr⟩, .done, rfl⟩
  · rw [resetNext_cons he] at hr
    cases hr
  · exact .inr ⟨fun hx => by simp [hx.1] at hp, rfl⟩
  · exact .inr ⟨fun hx => by simp [hx.1] at hp, takeEvent_status hne _⟩

/-- No outcome has the code of IDLE (R24, R25). -/
theorem outcomeCode_ne_zero (o : RequestOutcome) : outcomeCode o ≠ 0 := by
  cases o <;> simp [outcomeCode]

/-- `FAULT_SEEN` outlives every step that is no reset (R26). -/
theorem faultSeen_step {s t : State} (hseen : statusFaultSeen s.status = true) (hr : s.resetNext = false)
    (h : step s = .next t) : statusFaultSeen t.status = true := by
  rcases step_status hr h with ⟨-, o, ho⟩ | ⟨-, hkeep⟩
  · rw [ho, statusFaultSeen_recordOutcome, hseen, Bool.true_or]
  · rw [hkeep, hseen]

/-- An event changes no event that is still to come. -/
theorem takeEvent_events (e : HostEvent) (s : State) : (s.takeEvent e).events = s.events := by
  cases e with
  | reset => exact State.applyReset_events s
  | _ => rfl

/-- A step adds nothing to the host's events. -/
theorem events_step_subset {s t : State} (h : step s = .next t) : t.events ⊆ s.events := by
  rcases step_cases h with ⟨-, -, ⟨r, rfl⟩ | ⟨c, rfl⟩ | ⟨wl, -, rfl⟩⟩ | ⟨es, he, rfl⟩ | ⟨-, -, rfl⟩ |
    ⟨e, es, -, he, -, rfl⟩
  · exact List.Subset.refl _
  · exact List.Subset.refl _
  · exact List.Subset.refl _
  · rw [State.applyReset_events, he]
    exact List.subset_cons_self _ _
  · exact List.Subset.refl _
  · rw [takeEvent_events, he]
    exact List.subset_cons_self _ _

theorem resetNext_of_no_reset {s : State} (h : ∀ e ∈ s.events, e.isReset = false) : s.resetNext = false := by
  unfold State.resetNext
  cases he : s.events with
  | nil => rfl
  | cons e es => exact h e (he ▸ List.mem_cons_self)

/-- `FAULT_SEEN` outlives every run of the host's events without a reset (R26). -/
theorem faultSeen_run (k : Nat) {s t : State} (hseen : statusFaultSeen s.status = true)
    (hev : ∀ e ∈ s.events, e.isReset = false) (hrun : Sys2Proof.core.run k s = .next t) :
    statusFaultSeen t.status = true := by
  induction k generalizing s with
  | zero =>
    cases hrun
    exact hseen
  | succ k ih =>
    obtain ⟨u, hu⟩ := step_next s
    rw [run_succ_of_next Sys2Proof.core k hu] at hrun
    exact ih (faultSeen_step hseen (resetNext_of_no_reset hev) hu)
      (fun e he => hev e (events_step_subset hu he)) hrun

/-! ### The statements about steps -/

/-- Settles O15, by the invariant's lemma for each thing a step can do. -/
theorem stepKeepsTheInvariant : Obligations.StepKeepsTheInvariant :=
  fun _ _ h hstep => h.step hstep

/-- Settles O14: the windows list nothing and the lengths are 0. -/
theorem resetStateMeetsTheInvariant : Obligations.ResetStateMeetsTheInvariant :=
  ⟨rfl, rfl, by decide⟩

/-- Settles O11: an executed request records its outcome, and every other step but reset keeps STATUS. -/
theorem statusIsWrittenAtTheEndOfARequest : Obligations.StatusIsWrittenAtTheEndOfARequest := by
  refine ⟨?_, ?_, ?_⟩
  · intro s hx
    obtain ⟨t, o, ht, hst⟩ := execute_records s
    refine ⟨t, o, by rw [step_executing hx.1 hx.2, ht], ?_⟩
    rw [hst, statusOutcome_recordOutcome, statusCause_recordOutcome, statusFaultSeen_recordOutcome]
    cases o with
    | done => exact ⟨rfl, rfl, Bool.or_false _⟩
    | fault c => cases c <;> exact ⟨rfl, rfl, Bool.or_true _⟩
    | refused r => cases r <;> exact ⟨rfl, rfl, Bool.or_true _⟩
  · intro s t hx hr hstep
    rcases step_status hr hstep with ⟨hx', -⟩ | ⟨-, hkeep⟩
    · exact absurd hx' hx
    · exact hkeep
  · intro s t hr hstep hne
    rcases step_status hr hstep with ⟨-, o, ho⟩ | ⟨-, hkeep⟩
    · rw [ho, statusOutcome_recordOutcome]
      exact outcomeCode_ne_zero o
    · rwa [hkeep]

/-- Settles O12, by induction on the number of steps. -/
theorem faultSeenStaysUntilReset : Obligations.FaultSeenStaysUntilReset :=
  fun k _ _ hseen hev hrun => faultSeen_run k hseen hev hrun

end Sys2Proof.Machine
end

section
/-! The model's pixels against the spec's arithmetic on natural numbers: the components of a block, the bytes of each
format, and what a request writes (`WritesByte`) as the entries of its write list. -/

namespace Sys2Proof.Machine

open Sys2Proof.Claims

/-! ### Components -/

/-- The 565 unpacker in closed form (R81, R85, R86). -/
theorem unpack565_toNat (a b : Byte) :
    (unpack565 a b).1.toNat = up5 (bits (le16 a b) 0 5) ∧ (unpack565 a b).2.1.toNat = up6 (bits (le16 a b) 5 6) ∧
      (unpack565 a b).2.2.toNat = up5 (bits (le16 a b) 11 5) := by
  have ha := a.isLt
  have hb := b.isLt
  simp only [unpack565, ups_five, ups_six, toNat_append, toNat_extract, up5, up6, bits, le16]
  omega

/-- A color channel of an endpoint entry (R125). -/
theorem endpointPixel_channel (a b : Byte) {ch : Nat} (hch : ch < 3) :
    (pixelByte (endpointPixel a b) ch).toNat = endpointChannel (le16 a b) ch := by
  obtain ⟨hr, hg, hb⟩ := unpack565_toNat a b
  interval_cases ch
  · exact hb
  · exact hg
  · exact hr

/-- The approximate comparison on natural numbers (R124, R144). -/
theorem gt565_eq_decide (s0 s1 s2 s3 : Byte) :
    gt565 s0 s1 s2 s3 = decide (s0.toNat > s2.toNat ∨ s1.toNat > s3.toNat) := by
  simp [gt565, BitVec.ult]

/-- A channel of the four-color table (R125, R126). -/
theorem fourColor_channel (a b c d ba : Byte) (idx : BitVec 2) {ch : Nat} (hch : ch < 3) :
    (pixelByte (colorEntry ⟨endpointPixel a b, endpointPixel c d,
      blendPixel 2 1 3 (endpointPixel a b) (endpointPixel c d) 255,
      blendPixel 1 2 3 (endpointPixel a b) (endpointPixel c d) ba⟩ idx) ch).toNat =
      tableChannel true (le16 a b) (le16 c d) ch idx.toNat := by
  have hidx := idx.isLt
  simp only [colorEntry, tableChannel, ← endpointPixel_channel _ _ hch]
  generalize idx.toNat = n at hidx
  interval_cases n
  · rfl
  · rfl
  · simp [blendPixel_channel _ _ _ _ _ hch]
  · simp [blendPixel_channel _ _ _ _ _ hch]

/-- A channel of the three-color table (R125, R127). -/
theorem threeColor_channel (a b c d ba : Byte) (idx : BitVec 2) {ch : Nat} (hch : ch < 3) :
    (pixelByte (colorEntry ⟨endpointPixel a b, endpointPixel c d,
      blendPixel 1 1 2 (endpointPixel a b) (endpointPixel c d) 255, ⟨0, 0, 0, ba⟩⟩ idx) ch).toNat =
      tableChannel false (le16 a b) (le16 c d) ch idx.toNat := by
  have hidx := idx.isLt
  simp only [colorEntry, tableChannel, ← endpointPixel_channel _ _ hch]
  generalize idx.toNat = n at hidx
  interval_cases n
  · rfl
  · rfl
  · simp [blendPixel_channel _ _ _ _ _ hch]
  · interval_cases ch <;> rfl

/-- A color channel of an entry of a DXT1 block's table (R124 to R127). -/
theorem dxt1Table_channel (ba : Byte) (blk : List Byte) (idx : BitVec 2) {ch : Nat} (hch : ch < 3) :
    (pixelByte (colorEntry (dxt1Table ba blk) idx) ch).toNat =
      tableChannel (gt565 (blockByte blk 0) (blockByte blk 1) (blockByte blk 2) (blockByte blk 3))
        (le16 (blockByte blk 0) (blockByte blk 1)) (le16 (blockByte blk 2) (blockByte blk 3)) ch idx.toNat := by
  unfold dxt1Table
  cases gt565 (blockByte blk 0) (blockByte blk 1) (blockByte blk 2) (blockByte blk 3)
  · exact threeColor_channel _ _ _ _ ba idx hch
  · exact fourColor_channel _ _ _ _ ba idx hch

/-- The alpha of an entry of a DXT1 block's table: the black alpha of entry 3, 255 of the others (R125 to R127). -/
theorem dxt1Table_alpha (ba : Byte) (blk : List Byte) (idx : BitVec 2) :
    (colorEntry (dxt1Table ba blk) idx).a = if idx.toNat = 3 then ba else 255 := by
  have hidx := idx.isLt
  unfold dxt1Table colorEntry
  generalize idx.toNat = n at hidx
  cases gt565 (blockByte blk 0) (blockByte blk 1) (blockByte blk 2) (blockByte blk 3) <;> interval_cases n <;> rfl

/-- A color channel of an entry of a DXT3 or DXT5 block's table (R131). -/
theorem colorStageTable_channel (blk : List Byte) (idx : BitVec 2) {ch : Nat} (hch : ch < 3) :
    (pixelByte (colorEntry (colorStageTable blk) idx) ch).toNat =
      tableChannel true (le16 (blockByte blk 8) (blockByte blk 9)) (le16 (blockByte blk 10) (blockByte blk 11)) ch
        idx.toNat :=
  fourColor_channel _ _ _ _ 255 idx hch

/-- The color index of a row's index byte (R128). -/
theorem colorIndex_toNat (order : ColorIndexOrder) (v : Byte) (x : Nat) :
    (colorIndex order v x).toNat = colorIdx order v.toNat x := by
  cases order <;> exact toNat_extract _ _ _

/-- The entries of a DXT5 block's alpha table (R135 to R138). -/
theorem dxt5Table_entry (alpha7 : Option Byte) (blk : List Byte) (idx : BitVec 3) :
    (alphaEntry (dxt5Table alpha7 blk) idx).map BitVec.toNat =
      alphaTableEntry alpha7 (blockByte blk 0).toNat (blockByte blk 1).toNat idx.toNat := by
  have hidx := idx.isLt
  unfold dxt5Table alphaEntry alpha8Mode
  generalize blockByte blk 0 = a0
  generalize blockByte blk 1 = a1
  generalize idx.toNat = n at hidx
  by_cases hmode : a1.toNat ≤ a0.toNat
  · have hule : a1.ule a0 = true := decide_eq_true hmode
    simp only [hule, if_true]
    interval_cases n <;>
      simp [alphaTable8, alphaStep7, alphaTableEntry, hmode, blend_toNat]
  · have hule : a1.ule a0 = false := decide_eq_false hmode
    simp only [hule]
    interval_cases n <;>
      simp [alphaTable6, alphaStep5, alphaTableEntry, hmode, blend_toNat]

/-! ### The bytes of the packed-16 formats -/

/-- The low field of `w` as a left-justified byte: blue (R105). -/
theorem field5551_low (a : Byte) : (a &&& 0x1F) <<< 3 = (a.extractLsb' 0 5).setWidth 8 <<< 3 := by
  revert a; decide

/-- The middle field of `w`, of both bytes, as a left-justified byte: green (R105). -/
theorem field5551_middle (a b : Byte) : ((b &&& 0x03) <<< 6) ||| ((a &&& 0xE0) >>> 2) =
    (b.extractLsb' 0 2 ++ a.extractLsb' 5 3).setWidth 8 <<< 3 := by
  have hb : (b &&& 0x03) <<< 6 = (b.extractLsb' 0 2).setWidth 8 <<< 6 := by revert b; decide
  have ha : (a &&& 0xE0) >>> 2 = (a.extractLsb' 5 3).setWidth 8 <<< 3 := by clear hb; revert a; decide
  have hjoin : ∀ (f : BitVec 2) (g : BitVec 3),
      f.setWidth 8 <<< 6 ||| g.setWidth 8 <<< 3 = (f ++ g).setWidth 8 <<< 3 := by decide
  rw [hb, ha, hjoin]

/-- The high field of `w` as a left-justified byte: red (R105). -/
theorem field5551_high (b : Byte) : (b &&& 0x7C) <<< 1 = (b.extractLsb' 2 5).setWidth 8 <<< 3 := by
  revert b; decide

/-- The three 5-bit fields of `BGRA5551`, upsampled (R81, R105). -/
theorem pixelBgra5551_colors (a b : Byte) :
    (pixelBgra5551 a b).r.toNat = up5 (bits (le16 a b) 10 5) ∧ (pixelBgra5551 a b).g.toNat = up5 (bits (le16 a b) 5 5) ∧
      (pixelBgra5551 a b).b.toNat = up5 (bits (le16 a b) 0 5) := by
  have ha := a.isLt
  have hb := b.isLt
  simp only [pixelBgra5551, field5551_low, field5551_middle, field5551_high, ups_five, toNat_append, toNat_extract, up5,
    bits, le16]
  omega

/-- The alpha of `BGRA5551` is 255 or 0 by the top bit (R105). -/
theorem pixelBgra5551_alpha (a b : Byte) :
    (pixelBgra5551 a b).a.toNat = if bits (le16 a b) 15 1 = 1 then 255 else 0 := by
  have ha := a.isLt
  have htop : b.getLsbD 7 = decide (bits (le16 a b) 15 1 = 1) := by
    rw [BitVec.getLsbD, Nat.testBit_eq_decide_div_mod_eq]
    refine decide_eq_decide.2 ?_
    unfold bits le16
    omega
  simp only [pixelBgra5551, htop, decide_eq_true_eq]
  split <;> rfl

/-- The channels of `BGRA4444`, each 17 times its nibble (R84, R104). -/
theorem pixelBgra4444_toNat (a b : Byte) :
    (pixelBgra4444 a b).r.toNat = 17 * bits (le16 a b) 8 4 ∧ (pixelBgra4444 a b).g.toNat = 17 * bits (le16 a b) 4 4 ∧
      (pixelBgra4444 a b).b.toNat = 17 * bits (le16 a b) 0 4 ∧
      (pixelBgra4444 a b).a.toNat = 17 * bits (le16 a b) 12 4 := by
  have ha := a.isLt
  have hb := b.isLt
  simp only [pixelBgra4444, nibLo_toNat, nibHi_toNat, bits, le16]
  omega

/-- `P` gives, of the two bytes of a source value, the channels that the spec's list names in order. -/
def GivesChannels (P : Byte → Byte → Pixel) (channels : Nat → List Nat) : Prop :=
  ∀ a b, ∀ ch < 4, (pixelByte (P a b) ch).toNat = (channels (le16 a b)).getD ch 0

/-- A pixel function gives the channels that its four bytes are. -/
theorem GivesChannels.of_bytes {P : Byte → Byte → Pixel} {channels : Nat → List Nat}
    (h : ∀ a b, channels (le16 a b) = [(P a b).r.toNat, (P a b).g.toNat, (P a b).b.toNat, (P a b).a.toNat]) :
    GivesChannels P channels := by
  intro a b ch hch
  rw [h a b]
  interval_cases ch <;> rfl

/-- A packed-16 request commits the pixels of a function that gives its channels (R100 to R106). -/
theorem packedFunction_of_not_dxt {i : Instr} (h : ¬isDxt i) :
    ∃ P, (∀ cfg src, requestList cfg src i = packedList P i.width i.height src) ∧
      GivesChannels P (packedChannels i) := by
  cases i with
  | rgb565 w h =>
    refine ⟨pixelRgb565, fun _ _ => rfl, .of_bytes fun a b => ?_⟩
    obtain ⟨hr, hg, hb⟩ := unpack565_toNat a b
    simp [packedChannels, pixelRgb565, hr, hg, hb]
  | bgr565 w h =>
    refine ⟨pixelBgr565, fun _ _ => rfl, .of_bytes fun a b => ?_⟩
    obtain ⟨hr, hg, hb⟩ := unpack565_toNat a b
    simp [packedChannels, pixelBgr565, hr, hg, hb]
  | bgrx5551 w h =>
    refine ⟨pixelBgrx5551, fun _ _ => rfl, .of_bytes fun a b => ?_⟩
    obtain ⟨hr, hg, hb⟩ := pixelBgra5551_colors a b
    simp [packedChannels, pixelBgrx5551, hr, hg, hb]
  | bgra4444 w h =>
    refine ⟨pixelBgra4444, fun _ _ => rfl, .of_bytes fun a b => ?_⟩
    obtain ⟨hr, hg, hb, ha⟩ := pixelBgra4444_toNat a b
    simp [packedChannels, hr, hg, hb, ha]
  | bgra5551 w h =>
    refine ⟨pixelBgra5551, fun _ _ => rfl, .of_bytes fun a b => ?_⟩
    obtain ⟨hr, hg, hb⟩ := pixelBgra5551_colors a b
    simp [packedChannels, hr, hg, hb, pixelBgra5551_alpha]
  | _ => exact absurd (by simp [isDxt, fmtOf]) h

/-! ### The bytes of the DXT formats -/

/-- A byte of a block of the source window as a number (R122). -/
theorem blockByte_toNat (s : State) {n i : Nat} (w bX bY : Nat) (hi : i < n) :
    (blockByte (sourceBlock s.src n (blockIndex w bX bY)) i).toNat = srcAt s (n * (bY * ceilDiv4 w + bX) + i) := by
  rw [blockByte_sourceBlock s.src hi]
  rfl

/-- Byte `ch` of a pixel of a DXT1 block (R122 to R130). -/
theorem dxt1Pixel_byte (ba : Byte) (s : State) (w bX bY x : Nat) {y ch : Nat} (hy : y < 4) (hch : ch < 4) :
    (pixelByte (dxt1Pixel ba s.cfg (sourceBlock s.src 8 (blockIndex w bX bY)) x y) ch).toNat =
      dxt1Byte ba.toNat s w bX bY x y ch := by
  have hblk := fun i (hi : i < 8) => blockByte_toNat s w bX bY hi
  unfold dxt1Pixel dxt1Byte
  by_cases h3 : ch = 3
  · subst h3
    simp only [pixelByte, dxt1Table_alpha, colorIndex_toNat, if_true, hblk _ (show 4 + y < 8 by omega), ← Nat.add_assoc]
    split <;> rfl
  · simp only [if_neg h3, dxt1Table_channel ba _ _ (show ch < 3 by omega), gt565_eq_decide, le16, colorIndex_toNat,
      hblk _ (show 4 + y < 8 by omega), hblk 0 (by decide), hblk 1 (by decide), hblk 2 (by decide), hblk 3 (by decide),
      ← Nat.add_assoc, Nat.add_zero]

/-- A color byte of a pixel of a DXT3 or DXT5 block (R131). -/
theorem colorStagePixel_byte (s : State) (w bX bY x : Nat) {y ch : Nat} (hy : y < 4) (hch : ch < 3) :
    (pixelByte (colorStagePixel s.cfg (sourceBlock s.src 16 (blockIndex w bX bY)) x y) ch).toNat =
      colorStageByte s w bX bY x y ch := by
  have hblk := fun i (hi : i < 16) => blockByte_toNat s w bX bY hi
  simp only [colorStagePixel, colorStageByte, colorStageTable_channel _ _ hch, le16, colorIndex_toNat,
    hblk _ (show 12 + y < 16 by omega), hblk 8 (by decide), hblk 9 (by decide), hblk 10 (by decide),
    hblk 11 (by decide), ← Nat.add_assoc]

/-- The explicit alpha of a pixel of a DXT3 block (R84, R132). -/
theorem explicitAlpha_toNat (s : State) (w bX bY : Nat) {x y : Nat} (hx : x < 4) (hy : y < 4) :
    (explicitAlpha (sourceBlock s.src 16 (blockIndex w bX bY)) x y).toNat = dxt3AlphaByte s w bX bY x y := by
  have hlt : (4 * y + x) / 2 < 16 := by omega
  have hv : srcAt s (16 * (bY * ceilDiv4 w + bX) + (4 * y + x) / 2) < 256 := BitVec.isLt _
  simp only [explicitAlpha, dxt3AlphaByte, bits]
  split
  · rw [nibLo_toNat, blockByte_toNat s w bX bY hlt]
    omega
  · rw [nibHi_toNat, blockByte_toNat s w bX bY hlt]
    omega

/-- Six bytes as one 48-bit number, the first the most significant (R139). -/
theorem toNat_append_six (b0 b1 b2 b3 b4 b5 : Byte) :
    (b0 ++ (b1 ++ (b2 ++ (b3 ++ (b4 ++ b5))))).toNat =
      ((((b0.toNat * 256 + b1.toNat) * 256 + b2.toNat) * 256 + b3.toNat) * 256 + b4.toNat) * 256 + b5.toNat := by
  simp only [toNat_append]
  ring

/-- The alpha of a pixel of a DXT5 block, and whether it is unset (R134 to R140). -/
theorem dxt5Alpha_toNat (s : State) (w bX bY x y : Nat) :
    (dxt5Alpha s.cfg (sourceBlock s.src 16 (blockIndex w bX bY)) x y).map BitVec.toNat =
      dxt5AlphaByte s w bX bY x y := by
  have hblk := fun i (hi : i < 16) => blockByte_toNat s w bX bY hi
  unfold dxt5Alpha dxt5AlphaByte
  rw [dxt5Table_entry, hblk 0 (by decide), hblk 1 (by decide)]
  cases s.cfg.dxt5IndexLayout <;>
    simp only [alphaIndex, alphaField, toNat_extract, toNat_append_six, bits, hblk 2 (by decide), hblk 3 (by decide),
      hblk 4 (by decide), hblk 5 (by decide), hblk 6 (by decide), hblk 7 (by decide)]

/-! ### What a request writes -/

/-- `SrcReq` of a request is what the spec's table says it needs of `S` (R162). -/
theorem requestSrcReq_eq (i : Instr) : requestSrcReq i = srcNeed i := by
  cases i <;> rfl

theorem dstReqPacked_eq (w h : Nat) : dstReqPacked w h = if w = 0 ∨ h = 0 then 0 else 4 * w * h := by
  split
  · next h0 => rcases h0 with rfl | rfl <;> simp [dstReqPacked]
  · rfl

/-- `DstReq` of a request is what the spec's table says it needs of `D` (R163). -/
theorem requestDstReq_eq (i : Instr) : requestDstReq i = dstNeed i := by
  cases i with
  | dxt1 w h => rfl
  | dxt3 w h => rfl
  | dxt5 w h => rfl
  | dxt1OneBitAlpha w h => rfl
  | _ => exact dstReqPacked_eq _ _

/-- The entries of a DXT write list, over the indices of a block pixel's byte. -/
theorem Writes.mem_iff {w h : Nat} {pix : Nat → Nat → Nat → Nat → Pixel} {wl : WriteList} (hw : Writes w h pix wl)
    {o : Nat} {u : Byte} : (o, u) ∈ wl ↔ ∃ bX bY x y ch, InGrid w h bX bY x y ch ∧ o = doff w bX bY x y + ch ∧
      u = pixelByte (pix bX bY x y) ch := by
  rw [hw o u]
  constructor
  · rintro ⟨bX, hbX, bY, hbY, x, hx, y, hy, ch, hch, e⟩
    exact ⟨bX, bY, x, y, ch, ⟨hbX, hbY, hx, hy, hch⟩, e⟩
  · rintro ⟨bX, bY, x, y, ch, ⟨hbX, hbY, hx, hy, hch⟩, e⟩
    exact ⟨bX, hbX, bY, hbY, x, hx, y, hy, ch, hch, e⟩

/-- The alpha that replaces a pixel's leaves its colors (R131). -/
theorem pixelByte_withAlpha (p : Pixel) (alpha : Byte) {ch : Nat} (hch : ch < 3) :
    pixelByte { p with a := alpha } ch = pixelByte p ch := by
  interval_cases ch <;> rfl

/-- Byte `ch` of a pixel of a DXT3 block (R133). -/
theorem dxt3Pixel_byte (s : State) (w h bX bY : Nat) {x y ch : Nat} (hx : x < 4) (hy : y < 4) (hch : ch < 4) :
    dxtByte (.dxt3 w h) s bX bY x y ch =
      some (pixelByte (dxt3Pixel s.cfg (sourceBlock s.src 16 (blockIndex w bX bY)) x y) ch).toNat := by
  by_cases h3 : ch = 3
  · subst h3
    simp only [dxtByte, if_true, ← explicitAlpha_toNat s w bX bY hx hy]
    rfl
  · have hcolor : ch < 3 := by omega
    simp only [dxtByte, if_neg h3, ← colorStagePixel_byte s w bX bY x hy hcolor, dxt3Pixel, pixelByte_withAlpha _ _ hcolor]

/-- Byte `ch` of a pixel of a DXT5 block that selects no unset entry (R141). -/
theorem dxt5Pixel_byte (s : State) (w h bX bY : Nat) {x y ch : Nat} (hy : y < 4) (hch : ch < 4)
    (hset : dxt5Alpha s.cfg (sourceBlock s.src 16 (blockIndex w bX bY)) x y ≠ none) :
    dxtByte (.dxt5 w h) s bX bY x y ch =
      some (pixelByte (dxt5Pixel s.cfg (sourceBlock s.src 16 (blockIndex w bX bY)) x y) ch).toNat := by
  by_cases h3 : ch = 3
  · subst h3
    obtain ⟨v, hv⟩ := Option.ne_none_iff_exists'.1 hset
    simp only [dxtByte, if_true, ← dxt5Alpha_toNat, pixelByte, dxt5Pixel, hv, Option.map_some, Option.getD_some]
  · have hcolor : ch < 3 := by omega
    simp only [dxtByte, if_neg h3, ← colorStagePixel_byte s w bX bY x hy hcolor, dxt5Pixel, pixelByte_withAlpha _ _ hcolor]

/-- A DXT request commits pixels whose bytes are the spec's, where no pixel selects an unset entry (R120 to R141). -/
theorem dxtPixels_of_isDxt {i : Instr} (s : State) (hi : isDxt i) :
    ∃ pix, Writes i.width i.height pix (requestList s.cfg s.src i) ∧
      (¬requestUnset s.cfg s.src i → ∀ bX bY x y ch, InGrid i.width i.height bX bY x y ch →
        dxtByte i s bX bY x y ch = some (pixelByte (pix bX bY x y) ch).toNat) := by
  cases i with
  | dxt1 w h =>
    refine ⟨_, writes_dxt1List 255 w h s.cfg s.src, fun _ bX bY x y ch ⟨_, _, _, hy, hch⟩ => ?_⟩
    exact congrArg some (dxt1Pixel_byte 255 s w bX bY x hy hch).symm
  | dxt1OneBitAlpha w h =>
    refine ⟨_, writes_dxt1List 0 w h s.cfg s.src, fun _ bX bY x y ch ⟨_, _, _, hy, hch⟩ => ?_⟩
    exact congrArg some (dxt1Pixel_byte 0 s w bX bY x hy hch).symm
  | dxt3 w h =>
    exact ⟨_, writes_dxt3List w h s.cfg s.src, fun _ bX bY x y ch ⟨_, _, hx, hy, hch⟩ =>
      dxt3Pixel_byte s w h bX bY hx hy hch⟩
  | dxt5 w h =>
    refine ⟨_, writes_dxt5List w h s.cfg s.src, fun hu bX bY x y ch ⟨hbX, hbY, hx, hy, hch⟩ => ?_⟩
    exact dxt5Pixel_byte s w h bX bY hy hch fun hn => hu ⟨(bX, bY), mem_blockGrid.2 ⟨hbX, hbY⟩, x, hx, y, hy, hn⟩
  | _ => exact absurd hi (by simp [isDxt, fmtOf])

/-- The values of `V(o)` are those of the write list at `o` (R45), where no pixel selects an unset entry. -/
theorem writesByte_iff {i : Instr} {s : State} (hu : ¬requestUnset s.cfg s.src i) {o v : Nat} :
    WritesByte i s o v ↔ ∃ u : Byte, (o, u) ∈ requestList s.cfg s.src i ∧ u.toNat = v := by
  by_cases hd : isDxt i
  · obtain ⟨pix, hw, hbyte⟩ := dxtPixels_of_isDxt s hd
    simp only [WritesByte, hd, not_true_eq_false, false_and, or_false, true_and, hw.mem_iff]
    constructor
    · rintro ⟨bX, bY, x, y, ch, hg, ho, hv⟩
      rw [hbyte hu _ _ _ _ _ hg] at hv
      exact ⟨_, ⟨bX, bY, x, y, ch, hg, ho, rfl⟩, Option.some.inj hv⟩
    · rintro ⟨_, ⟨bX, bY, x, y, ch, hg, ho, rfl⟩, rfl⟩
      exact ⟨bX, bY, x, y, ch, hg, ho, hbyte hu _ _ _ _ _ hg⟩
  · obtain ⟨P, hlist, hP⟩ := packedFunction_of_not_dxt hd
    simp only [WritesByte, hd, not_false_eq_true, false_and, false_or, true_and, hlist, mem_packedList]
    constructor
    · rintro ⟨p, hp, ch, hch, ho, hv⟩
      exact ⟨_, ⟨p, hp, ch, hch, ho, rfl⟩, (hP _ _ ch hch).trans hv.symm⟩
    · rintro ⟨_, ⟨p, hp, ch, hch, ho, rfl⟩, rfl⟩
      exact ⟨p, hp, ch, hch, ho, hP _ _ ch hch⟩

/-- A request that is packed-16, or DXT with `W` a multiple of 4, writes each offset once (R46, R187). -/
theorem requestList_unique {i : Instr} {s : State} (h : ¬isDxt i ∨ i.width % 4 = 0) {o : Nat} {u u' : Byte}
    (hu : (o, u) ∈ requestList s.cfg s.src i) (hu' : (o, u') ∈ requestList s.cfg s.src i) : u' = u := by
  by_cases hd : isDxt i
  · have hw4 : i.width % 4 = 0 := h.resolve_left (not_not.2 hd)
    obtain ⟨pix, hw, -⟩ := dxtPixels_of_isDxt s hd
    obtain ⟨bX, bY, x, y, ch, ⟨hbX, -, hx, hy, hch⟩, ho, rfl⟩ := hw.mem_iff.1 hu
    obtain ⟨bX', bY', x', y', ch', ⟨hbX', -, hx', hy', hch'⟩, ho', rfl⟩ := hw.mem_iff.1 hu'
    obtain ⟨rfl, rfl, rfl, rfl, rfl⟩ := doff_inj hw4 hbX hbX' hx hx' hy hy' hch hch' (ho.symm.trans ho')
    rfl
  · obtain ⟨P, hlist, -⟩ := packedFunction_of_not_dxt hd
    rw [hlist] at hu hu'
    obtain ⟨p, -, ch, hch, ho, rfl⟩ := mem_packedList.1 hu
    obtain ⟨p', -, ch', hch', ho', rfl⟩ := mem_packedList.1 hu'
    obtain rfl : p = p' := by omega
    obtain rfl : ch = ch' := by omega
    rfl

/-- Under `REFERENCE` a written offset reads the same after a commit, whatever the draw and the window (R45). -/
theorem read_commit_reference (draw draw' : Nat) {wl : WriteList} {m m' : Memory} (hm : m.wf = true)
    (hm' : m'.wf = true) {o : Nat} {u : Byte} (hu : (o, u) ∈ wl) :
    (commit .reference draw' wl m').read o = (commit .reference draw wl m).read o := by
  obtain ⟨v, hv⟩ := chosenValue_isSome .reference 0 o (List.ne_nil_of_mem (mem_valuesAt.2 hu))
  rw [chosenValue_reference] at hv
  simp only [read_commit _ _ _ hm, read_commit _ _ _ hm', chosenValue_reference, hv, Option.getD_some]

/-- Where a request's bytes are determined, a written offset reads the same after both commits (R187). -/
theorem read_commit_determined {i : Instr} {s : State} (hdet : WritesDetermined i s) (draw draw' : Nat)
    {m m' : Memory} (hm : m.wf = true) (hm' : m'.wf = true) {o : Nat} {u : Byte}
    (hu : (o, u) ∈ requestList s.cfg s.src i) :
    (commit s.cfg.writeOrder draw' (requestList s.cfg s.src i) m').read o =
      (commit s.cfg.writeOrder draw (requestList s.cfg s.src i) m).read o := by
  rcases hdet with href | honce
  · rw [href]
    exact read_commit_reference draw draw' hm hm' hu
  · exact requestList_unique honce (read_commit_mem _ draw hm hu) (read_commit_mem _ draw' hm' hu)

/-- Two commits of one request's write list, whatever the draws and the windows, write alike (R27, R45, R46). -/
theorem writtenAlike_commit {i : Instr} {s : State} (hunset : ¬requestUnset s.cfg s.src i) (draw draw' : Nat)
    {d d' : Memory} (hd : d.wf = true) (hd' : d'.wf = true) :
    WrittenAlike i s d d' (commit s.cfg.writeOrder draw (requestList s.cfg s.src i) d)
      (commit s.cfg.writeOrder draw' (requestList s.cfg s.src i) d') := by
  constructor
  · rintro o ⟨v, hv⟩
    obtain ⟨u, hu, -⟩ := (writesByte_iff hunset).1 hv
    exact ⟨(writesByte_iff hunset).2 ⟨_, read_commit_mem _ draw hd hu, rfl⟩,
      (writesByte_iff hunset).2 ⟨_, read_commit_mem _ draw' hd' hu, rfl⟩,
      fun hdet => read_commit_determined hdet draw draw' hd hd' hu⟩
  · intro o hno
    have hlist : ∀ u, (o, u) ∉ requestList s.cfg s.src i := fun u hu => hno _ ((writesByte_iff hunset).2 ⟨u, hu, rfl⟩)
    exact ⟨read_commit_of_not_written _ draw hd hlist, read_commit_of_not_written _ draw' hd' hlist⟩

/-- Windows written alike read the same everywhere when they did before and the bytes are determined (R187). -/
theorem read_eq_of_writtenAlike {i : Instr} {s : State} {d d' m m' : Memory} (h : WrittenAlike i s d d' m m')
    (hdet : WritesDetermined i s) (hd : ∀ o, d'.read o = d.read o) (o : Nat) : m'.read o = m.read o := by
  obtain ⟨hwritten, hkept⟩ := h
  by_cases hw : ∃ v, WritesByte i s o v
  · obtain ⟨-, -, heq⟩ := hwritten o hw
    exact heq hdet
  · obtain ⟨hm, hm'⟩ := hkept o (not_exists.1 hw)
    rw [hm, hm', hd]

/-! ### How a request ends -/

/-- Two runs of a request with equal lengths, configuration and bytes of `S` below `SrcReq` end in the same fault or
commit the same write list (R27, R162). -/
theorem exec_ends_alike {i : Instr} {s s' : State} (hcfg : s'.cfg = s.cfg) (hsl : s'.srcLen = s.srcLen)
    (hdl : s'.dstLen = s.dstLen) (hsrc : ∀ o < requestSrcReq i, s'.src.read o = s.src.read o) :
    (∃ c, exec i s = .next (s.endFault c) ∧ exec i s' = .next (s'.endFault c)) ∨
    (requestDstReq i ≤ s.dstLen ∧ ¬requestUnset s.cfg s.src i ∧
      exec i s = .next (s.endDone (requestList s.cfg s.src i)) ∧
      exec i s' = .next (s'.endDone (requestList s.cfg s.src i))) := by
  by_cases hs : s.srcLen < requestSrcReq i
  · exact .inl ⟨_, exec_srcRange hs, exec_srcRange (hsl ▸ hs)⟩
  have hs := Nat.le_of_not_lt hs
  have hs' : requestSrcReq i ≤ s'.srcLen := hsl ▸ hs
  by_cases hd : s.dstLen < requestDstReq i
  · exact .inl ⟨_, exec_dstRange hs hd, exec_dstRange hs' (hdl ▸ hd)⟩
  have hd := Nat.le_of_not_lt hd
  have hd' : requestDstReq i ≤ s'.dstLen := hdl ▸ hd
  have hunset : requestUnset s'.cfg s'.src i ↔ requestUnset s.cfg s.src i := hcfg ▸ requestUnset_congr hsrc
  have hlist : requestList s'.cfg s'.src i = requestList s.cfg s.src i := hcfg ▸ requestList_congr hsrc
  by_cases hu : requestUnset s.cfg s.src i
  · exact .inl ⟨_, exec_unset hs hd hu, exec_unset hs' hd' (hunset.2 hu)⟩
  · exact .inr ⟨hd, hu, exec_done hs hd hu, hlist ▸ exec_done hs' hd' (mt hunset.1 hu)⟩

/-- A request ends in a fault, or its windows suffice and it commits its write list (R66). -/
theorem exec_ends (i : Instr) (s : State) :
    (∃ c, exec i s = .next (s.endFault c)) ∨
    (requestDstReq i ≤ s.dstLen ∧ exec i s = .next (s.endDone (requestList s.cfg s.src i))) := by
  rcases exec_ends_alike (i := i) (s := s) rfl rfl rfl fun _ _ => rfl with ⟨c, h, -⟩ | ⟨hd, -, h, -⟩
  · exact .inl ⟨c, h⟩
  · exact .inr ⟨hd, h⟩

theorem keepsRegisters_endFault (c : FaultCause) (s : State) : KeepsRegisters s (s.endFault c) :=
  ⟨rfl, rfl, rfl, rfl, rfl, rfl, rfl⟩

theorem keepsRegisters_endDone (wl : WriteList) (s : State) : KeepsRegisters s (s.endDone wl) :=
  ⟨rfl, rfl, rfl, rfl, rfl, rfl, rfl⟩

/-- A fault does not end with the outcome code of DONE (R25). -/
theorem statusOutcome_endFault_ne_done (c : FaultCause) (s : State) : statusOutcome (s.endFault c).status ≠ 1 := by
  rw [State.endFault_status, statusOutcome_recordOutcome]
  simp [outcomeCode]

/-- A commit of a request's write list keeps the bytes at and above `DstReq` (R163). -/
theorem read_endDone_requestList_above {i : Instr} {s : State} (hwf : s.dst.wf = true) {o : Nat}
    (ho : requestDstReq i ≤ o) : (s.endDone (requestList s.cfg s.src i)).dst.read o = s.dst.read o :=
  read_endDone_of_not_written hwf fun _ hv => absurd (requestList_lt hv) (Nat.not_lt.2 ho)

/-! ### The statements about requests -/

/-- Settles O19: both runs end in the same fault, or commit the same write list. -/
theorem equalRequestsWriteEqualBytes : Obligations.EqualRequestsWriteEqualBytes := by
  intro i s s' hwf hwf' hcfg hsl hdl hsrc
  rw [← requestSrcReq_eq] at hsrc
  rcases exec_ends_alike hcfg hsl hdl hsrc with ⟨c, h, h'⟩ | ⟨-, hunset, h, h'⟩
  · refine ⟨_, _, h, h', ?_, ?_, fun hdone => absurd hdone (statusOutcome_endFault_ne_done c s)⟩ <;> simp
  · have halike := writtenAlike_commit hunset s.draws s'.draws hwf hwf'
    refine ⟨_, _, h, h', by simp, by simp, fun _ => ?_⟩
    rw [State.endDone_dst, State.endDone_dst, hcfg]
    exact ⟨halike, fun hdet hd => read_eq_of_writtenAlike halike hdet hd⟩

/-- Settles O20: a fault leaves the bytes beyond the window alone, a commit those at and above `DstReq`. -/
theorem requestChangesOnlyStatusAndWindow : Obligations.RequestChangesOnlyStatusAndWindow := by
  intro i s t hwf hexec
  rw [← requestDstReq_eq]
  rcases exec_ends i s with ⟨c, h⟩ | ⟨hd, h⟩ <;> rw [h] at hexec <;> cases hexec
  · exact ⟨keepsRegisters_endFault c s, fun o ho => read_endFault_above hwf c ho,
      fun hdone => absurd hdone (statusOutcome_endFault_ne_done c s)⟩
  · exact ⟨keepsRegisters_endDone _ s, fun o ho => read_endDone_requestList_above hwf (hd.trans ho),
      fun _ o ho => read_endDone_requestList_above hwf ho⟩

end Sys2Proof.Machine
end

section
/-! The source window along requests and resets, the commit's clauses, and where the bytes of a DXT request end. -/

namespace Sys2Proof.Machine

open Sys2Proof.Claims

/-! ### The source window (R41) -/

/-- No request writes `S`, whichever way it ends (R41). -/
theorem exec_src {i : Instr} {s t : State} (h : exec i s = .next t) : t.src = s.src := by
  rcases exec_cases i s with ⟨c, he⟩ | ⟨wl, -, he⟩ <;> rw [he] at h <;> cases h
  · exact State.endFault_src c s
  · exact State.endDone_src wl s

/-- A step writes `S` only where the host acts with an event other than reset (R41, R183). -/
theorem step_src {s t : State} (hx : Executing s ∨ s.resetNext = true) (h : step s = .next t) : t.src = s.src := by
  rcases step_cases h with ⟨-, -, ⟨r, rfl⟩ | ⟨c, rfl⟩ | ⟨wl, -, rfl⟩⟩ | ⟨es, -, rfl⟩ | ⟨-, -, rfl⟩ |
    ⟨e, es, hidle, he, hne, -⟩
  · exact State.endRefused_src r s
  · exact State.endFault_src c s
  · exact State.endDone_src wl s
  · exact State.applyReset_src _
  · rfl
  · rcases hx with ⟨hbusy, -⟩ | hreset
    · rw [hidle] at hbusy
      cases hbusy
    · rw [resetNext_cons he] at hreset
      exact absurd (isReset_iff.1 hreset) hne

/-- Settles O16: a request ends without writing `S`, and a step that is a request or a reset keeps it. -/
theorem blockNeverWritesSource : Obligations.BlockNeverWritesSource :=
  ⟨fun _ _ _ h => exec_src h, fun _ _ hx h => step_src hx h⟩

/-! ### The destination window before a request (R42) -/

/-- Settles O17: both runs end in the same fault, or commit the same write list, each to its own window. -/
theorem resultDoesNotDependOnDestination : Obligations.ResultDoesNotDependOnDestination := by
  intro i s d n hwf hwf'
  rcases exec_ends_alike (i := i) (s := s) (s' := { s with dst := d, draws := n }) rfl rfl rfl fun _ _ => rfl with
    ⟨c, h, h'⟩ | ⟨-, hunset, h, h'⟩
  · exact ⟨_, _, h, h', rfl, fun hdone => absurd hdone (statusOutcome_endFault_ne_done c s)⟩
  · exact ⟨_, _, h, h', rfl, fun _ => writtenAlike_commit hunset s.draws n hwf hwf'⟩

/-! ### The commit (R45, R46) -/

/-- The last value at an offset is that of the last entry that names it. -/
theorem getLast_valuesAt_last_entry {xs ys : WriteList} {o : Nat} {v : Byte} (hlast : ∀ u, (o, u) ∉ ys) :
    (valuesAt (xs ++ (o, v) :: ys) o).getLast? = some v := by
  have hys : valuesAt ys o = [] := List.eq_nil_iff_forall_not_mem.2 fun u hu => hlast u (mem_valuesAt.1 hu)
  have hentry : valuesAt ((o, v) :: ys) o = [v] := by
    rw [← List.singleton_append, valuesAt_append, hys]
    simp [valuesAt]
  rw [valuesAt_append, hentry, List.getLast?_concat]

/-- Under `REFERENCE` the last entry at an offset decides its byte (R45). -/
theorem read_commit_last_entry (draw : Nat) {xs ys : WriteList} {o : Nat} {v : Byte} (hlast : ∀ u, (o, u) ∉ ys)
    {m : Memory} (hm : m.wf = true) : (commit .reference draw (xs ++ (o, v) :: ys) m).read o = v := by
  rw [read_commit _ _ _ hm, chosenValue_reference, getLast_valuesAt_last_entry hlast, Option.getD_some]

/-- Settles O22, a clause for each case of a commit at an offset. -/
theorem commitGivesEachByteOneOfItsValues : Obligations.CommitGivesEachByteOneOfItsValues := by
  intro order draw wl m o hm
  refine ⟨fun ⟨v, hv⟩ => read_commit_mem order draw hm hv, ?_, fun ho => read_commit_of_not_written order draw hm ho⟩
  rintro v xs ys rfl rfl hlast
  exact read_commit_last_entry draw hlast hm

/-! ### A DXT request that is ready ends DONE (R66) -/

/-- A request that is ready has no pixel that selects the unset alpha entry (R138). -/
theorem not_requestUnset_of_dxtReady {i : Instr} {s : State} (h : DxtReady i s) : ¬requestUnset s.cfg s.src i := by
  obtain ⟨-, -, hset⟩ := h
  cases i with
  | dxt5 w h =>
    rintro ⟨⟨bX, bY⟩, hq, x, hx, y, hy, hnone⟩
    obtain ⟨hbX, hbY⟩ := mem_blockGrid.1 hq
    refine hset bX bY x y 3 ⟨hbX, hbY, hx, hy, by decide⟩ ?_
    simp only [dxtByte, if_true, ← dxt5Alpha_toNat, hnone, Option.map_none]
  | _ => exact id

/-- A request that is ready commits its write list. -/
theorem exec_of_dxtReady {i : Instr} {s : State} (h : DxtReady i s) :
    exec i s = .next (s.endDone (requestList s.cfg s.src i)) := by
  have hunset := not_requestUnset_of_dxtReady h
  obtain ⟨hs, hd, -⟩ := h
  exact exec_done (requestSrcReq_eq i ▸ hs) (requestDstReq_eq i ▸ hd) hunset

/-- `STATUS` after DONE (R25). -/
theorem statusIs_endDone (wl : WriteList) (s : State) : StatusIs s (s.endDone wl) 1 0 := by
  simp [StatusIs, outcomeCode, causeCode, outcomeIsBad]

/-! ### Where the bytes of a DXT request end -/

/-- The offset of image pixel `(X, Y)` is that of its block pixel (R49, R121). -/
theorem doff_div_mod (w X Y : Nat) : doff w (X / 4) (Y / 4) (X % 4) (Y % 4) = 4 * (w * Y + X) := by
  rw [doff, Nat.div_add_mod, Nat.add_assoc, Nat.div_add_mod]

/-- An image pixel, or one of the rows that pad the last block row, is a pixel of its block of the grid (R120). -/
theorem inGrid_div_mod {w h X Y ch : Nat} (hX : X < w) (hY : Y < 4 * ceilDiv4 h) (hch : ch < 4) :
    InGrid w h (X / 4) (Y / 4) (X % 4) (Y % 4) ch := by
  unfold InGrid ceilDiv4 at *
  omega

/-- Settles O37: with `W` a multiple of 4 no two block pixels share an offset. -/
theorem alignedWidthImageDecodesInPlace : Obligations.AlignedWidthImageDecodesInPlace := by
  intro i s hi hwf hw4 hready
  refine ⟨_, exec_of_dxtReady hready, statusIs_endDone _ s, fun X Y ch hX hY hch => ?_⟩
  obtain ⟨pix, hwrites, hbyte⟩ := dxtPixels_of_isDxt s hi
  have hgrid := inGrid_div_mod hX hY hch
  rw [hbyte (not_requestUnset_of_dxtReady hready) _ _ _ _ _ hgrid, ← doff_div_mod, State.endDone_dst]
  obtain ⟨hbX, hbY, hx, hy, -⟩ := hgrid
  rw [hwrites.read_aligned hw4 _ _ hwf hbX hbY hx hy hch]

/-- Under `REFERENCE` a commit leaves, at a byte of the last block pixel at its offset, that pixel's value (R45, R142):
the block's list of each format names its pixels in reference order, byte lane by byte lane. -/
theorem dxtByte_of_last_pixel {i : Instr} {s : State} (hi : isDxt i) (hunset : ¬requestUnset s.cfg s.src i) (draw : Nat)
    {m : Memory} (hm : m.wf = true) {bX bY x y ch : Nat} (hgrid : InGrid i.width i.height bX bY x y ch)
    (hlast : LastAtItsOffset i.width i.height bX bY x y) :
    some ((commit .reference draw (requestList s.cfg s.src i) m).read (doff i.width bX bY x y + ch)).toNat =
      dxtByte i s bX bY x y ch := by
  obtain ⟨hbX, hbY, hx, hy, hch⟩ := hgrid
  have hlater : ∀ bX' < ceil4 i.width, ∀ bY' < ceil4 i.height, ∀ x' < 4, ∀ y' < 4,
      doff i.width bX' bY' x' y' = doff i.width bX bY x y →
      bY' < bY ∨ (bY' = bY ∧ (bX' < bX ∨ (bX' = bX ∧ 4 * y' + x' ≤ 4 * y + x))) :=
    fun bX' h1 bY' h2 x' h3 y' h4 => hlast bX' bY' x' y' ⟨h1, h2, h3, h4, by decide⟩
  have hread4 := fun pix => read_commit_last_blockList4 draw pix hbX hbY hx hy hch hlater hm
  have hread31 := fun pix => read_commit_last_blockList31 draw pix hbX hbY hx hy hch hlater hm
  cases i with
  | dxt1 w h =>
    have hread := hread4 fun bX bY => dxt1Pixel 255 s.cfg (sourceBlock s.src 8 (blockIndex w bX bY))
    exact congrArg some ((congrArg BitVec.toNat hread).trans (dxt1Pixel_byte 255 s w bX bY x hy hch))
  | dxt1OneBitAlpha w h =>
    have hread := hread4 fun bX bY => dxt1Pixel 0 s.cfg (sourceBlock s.src 8 (blockIndex w bX bY))
    exact congrArg some ((congrArg BitVec.toNat hread).trans (dxt1Pixel_byte 0 s w bX bY x hy hch))
  | dxt3 w h =>
    have hread := hread31 fun bX bY => dxt3Pixel s.cfg (sourceBlock s.src 16 (blockIndex w bX bY))
    rw [dxt3Pixel_byte s w h bX bY hx hy hch]
    exact congrArg (fun v : Byte => some v.toNat) hread
  | dxt5 w h =>
    have hread := hread31 fun bX bY => dxt5Pixel s.cfg (sourceBlock s.src 16 (blockIndex w bX bY))
    rw [dxt5Pixel_byte s w h bX bY hy hch fun hnone =>
      hunset ⟨(bX, bY), mem_blockGrid.2 ⟨hbX, hbY⟩, x, hx, y, hy, hnone⟩]
    exact congrArg (fun v : Byte => some v.toNat) hread
  | _ => exact absurd hi (by simp [isDxt, fmtOf])

/-- Settles O41: of the writes at an offset, the commit keeps that of the pixel which is last there. -/
theorem lastWriteWinsUnderReferenceOrder : Obligations.LastWriteWinsUnderReferenceOrder := by
  intro i s hi hwf href hready
  refine ⟨_, exec_of_dxtReady hready, statusIs_endDone _ s, fun bX bY x y ch hgrid hlast => ?_⟩
  rw [State.endDone_dst, href]
  exact dxtByte_of_last_pixel hi (not_requestUnset_of_dxtReady hready) s.draws hwf hgrid hlast

end Sys2Proof.Machine
end

section
/-! The command word both ways: decoding an encoding, encoding a decoded word, disassembling and assembling; and the step
that runs the decoded request. -/

namespace Sys2Proof

open Sys2Proof.Machine Sys2Proof.Claims

/-! ### Encoding and decoding (R61, R62) -/

theorem wellFormed_iff {i : Instr} : i.wellFormed = true ↔ i.width < 65536 ∧ i.height < 65536 := by
  simp [Instr.wellFormed]

/-- Settles O2: each field of the encoding is the request's, and a size below 65536 fits its field. -/
theorem encodeThenDecodeGivesTheRequestBack : Obligations.EncodeThenDecodeGivesTheRequestBack := by
  intro i hwf
  obtain ⟨hw, hh⟩ := wellFormed_iff.1 hwf
  refine decode_eq_ok.2 ⟨cmdRsv0_encode i, cmdRsv1_encode i, (cmdFmt_encode i).symm, ?_, ?_⟩
  · rw [cmdWidth_encode, BitVec.toNat_ofNat, Nat.mod_eq_of_lt hw]
  · rw [cmdHeight_encode, BitVec.toNat_ofNat, Nat.mod_eq_of_lt hh]

/-- Settles O3: the sizes come from 16-bit fields, and the fields of a word that decodes give the word back. -/
theorem decodedWordEncodesBack : Obligations.DecodedWordEncodesBack := by
  intro cmd i hdec
  obtain ⟨hr0, hr1, hf, hw, hh⟩ := decode_eq_ok.1 hdec
  refine ⟨wellFormed_iff.2 ⟨?_, ?_⟩, encode_of_fields hr0 hr1 hf hw hh⟩
  · rw [hw]
    exact (cmdWidth cmd).isLt
  · rw [hh]
    exact (cmdHeight cmd).isLt

/-- Settles O1: each word is decoded. -/
theorem commandWordsDecodeToTheirRequests : Obligations.CommandWordsDecodeToTheirRequests := by
  unfold Obligations.CommandWordsDecodeToTheirRequests
  decide

/-! ### The fields as numbers (R61) -/

theorem cmdFmt_toNat (cmd : BitVec 64) : (cmdFmt cmd).toNat = bits cmd.toNat 0 8 := toNat_extract _ _ _

theorem cmdRsv0_toNat (cmd : BitVec 64) : (cmdRsv0 cmd).toNat = bits cmd.toNat 8 8 := toNat_extract _ _ _

theorem cmdWidth_toNat (cmd : BitVec 64) : (cmdWidth cmd).toNat = bits cmd.toNat 16 16 := toNat_extract _ _ _

theorem cmdHeight_toNat (cmd : BitVec 64) : (cmdHeight cmd).toNat = bits cmd.toNat 32 16 := toNat_extract _ _ _

theorem cmdRsv1_toNat (cmd : BitVec 64) : (cmdRsv1 cmd).toNat = bits cmd.toNat 48 16 := toNat_extract _ _ _

/-- The encoder's format code is the one of the spec's table (R62). -/
theorem fmtCode_toNat (i : Instr) : (fmtCode i).toNat = fmtOf i := by
  cases i <;> rfl

theorem mem_requestsOf {i : Instr} {w h : Nat} : i ∈ requestsOf w h ↔ i.width = w ∧ i.height = h := by
  cases i <;> simp [requestsOf, Instr.width, Instr.height]

/-- The nine format codes are those of the nine requests of any size (R62). -/
theorem map_fmtOf_requestsOf (w h : Nat) : (requestsOf w h).map fmtOf = fmtCodes := rfl

theorem fmtOf_mem_fmtCodes (i : Instr) : fmtOf i ∈ fmtCodes := by
  rw [← map_fmtOf_requestsOf i.width i.height]
  exact List.mem_map_of_mem (mem_requestsOf.2 ⟨rfl, rfl⟩)

/-- `decode_eq_ok` on numbers: the reserved fields are 0, the other fields are the request's. -/
theorem decode_eq_ok_iff_bits {cmd : BitVec 64} {i : Instr} : decode cmd = .ok i ↔
    bits cmd.toNat 8 8 = 0 ∧ bits cmd.toNat 48 16 = 0 ∧ fmtOf i = bits cmd.toNat 0 8 ∧
      i.width = bits cmd.toNat 16 16 ∧ i.height = bits cmd.toNat 32 16 := by
  simp only [decode_eq_ok, BitVec.toNat_eq, cmdRsv0_toNat, cmdRsv1_toNat, cmdFmt_toNat, cmdWidth_toNat,
    cmdHeight_toNat, fmtCode_toNat]
  exact Iff.rfl

/-- A word decodes exactly when its reserved fields are 0 and its format code is one of the nine (R63, R64). -/
theorem exists_decode_iff_bits {cmd : BitVec 64} : (∃ i, decode cmd = .ok i) ↔
    bits cmd.toNat 8 8 = 0 ∧ bits cmd.toNat 48 16 = 0 ∧ bits cmd.toNat 0 8 ∈ fmtCodes := by
  constructor
  · rintro ⟨i, hdec⟩
    obtain ⟨hr0, hr1, hf, -, -⟩ := decode_eq_ok_iff_bits.1 hdec
    exact ⟨hr0, hr1, hf ▸ fmtOf_mem_fmtCodes i⟩
  · rintro ⟨hr0, hr1, hf⟩
    rw [← map_fmtOf_requestsOf (bits cmd.toNat 16 16) (bits cmd.toNat 32 16)] at hf
    obtain ⟨i, hi, hfi⟩ := List.mem_map.1 hf
    exact ⟨i, decode_eq_ok_iff_bits.2 ⟨hr0, hr1, hfi, mem_requestsOf.1 hi⟩⟩

/-! ### The assembler and the disassembler (R68, R69) -/

theorem disassemble_of_decode {cmd : BitVec 64} {i : Instr} (h : decode cmd = .ok i) :
    disassemble cmd = .statement i := by
  simp only [disassemble, h]

theorem disassemble_of_not_decode {cmd : BitVec 64} (h : ¬∃ i, decode cmd = .ok i) :
    disassemble cmd = .rawCmd cmd := by
  unfold disassemble
  cases hdec : decode cmd with
  | ok i => exact absurd ⟨i, hdec⟩ h
  | error r => rfl

/-- The nine mnemonics are distinct, so a request's own names it (R62). -/
theorem requestOfMnemonic_mnemonic {i : Instr} (h : i.wellFormed = true) :
    requestOfMnemonic (mnemonic i) i.width i.height = some i := by
  cases i <;> simp_all [requestOfMnemonic, requestsOf, mnemonic, Instr.width, Instr.height]

theorem assemble_mnemonic {i : Instr} (h : i.wellFormed = true) :
    assemble (mnemonic i) i.width i.height = some (encode i) := by
  rw [assemble, requestOfMnemonic_mnemonic h, Option.map_some]

/-- Settles O4: the word either decodes, and the statement of its request assembles to its encoding, or stays raw. -/
theorem disassemblyAssemblesBack : Obligations.DisassemblyAssemblesBack := by
  intro cmd
  rw [← exists_decode_iff_bits]
  refine ⟨?_, disassemble_of_not_decode⟩
  rintro ⟨i, hdec⟩
  obtain ⟨-, -, hf, hw, hh⟩ := decode_eq_ok_iff_bits.1 hdec
  obtain ⟨hwf, henc⟩ := decodedWordEncodesBack cmd i hdec
  exact ⟨i, disassemble_of_decode hdec, hw, hh, hf, henc ▸ assemble_mnemonic hwf⟩

/-! ### The step (R22, R66) -/

/-- Settles O5: a step that meets a request in progress and no reset executes it, and executing a word that decodes is
`exec` of its request. -/
theorem stepRunsTheDecodedRequest : Obligations.StepRunsTheDecodedRequest := by
  rintro s i ⟨hbusy, hreset⟩ hdec
  rw [step_executing hbusy hreset, execute_of_decode hdec]

end Sys2Proof
end

section
/-! Requests that write nothing, and the two formats of 8-byte blocks against each other. -/

namespace Sys2Proof.Machine

open Sys2Proof.Claims

/-! ### Requests of width or height 0 (R65) -/

theorem requestSrcReq_of_empty {i : Instr} (h0 : i.width = 0 ∨ i.height = 0) : requestSrcReq i = 0 := by
  rw [requestSrcReq_eq, srcNeed, srcReqOf]
  rcases h0 with hw | hh
  · simp [hw, ceilDiv4]
  · simp [hh, ceilDiv4]

theorem requestDstReq_of_empty {i : Instr} (h0 : i.width = 0 ∨ i.height = 0) : requestDstReq i = 0 := by
  rw [requestDstReq_eq]
  exact if_pos h0

/-- A request of no pixel has an empty write list: no offset is below its `DstReq` of 0. -/
theorem requestList_of_empty {i : Instr} (h0 : i.width = 0 ∨ i.height = 0) (cfg : Config) (src : Memory) :
    requestList cfg src i = [] := by
  refine List.eq_nil_iff_forall_not_mem.2 fun c hc => ?_
  have hlt := requestList_lt hc
  rw [requestDstReq_of_empty h0] at hlt
  exact Nat.not_lt_zero _ hlt

/-- A request of no pixel has none that selects the unset alpha entry. -/
theorem not_requestUnset_of_empty {i : Instr} (h0 : i.width = 0 ∨ i.height = 0) (cfg : Config) (src : Memory) :
    ¬requestUnset cfg src i := by
  cases i with
  | dxt5 w h =>
    rintro ⟨q, hq, -⟩
    obtain ⟨hbX, hbY⟩ := mem_blockGrid.1 hq
    obtain ⟨hw, hh⟩ := pos_of_block hbX hbY
    exact h0.elim hw hh
  | _ => exact id

/-- Settles O21: nothing is needed of the windows, and the commit of the empty write list is no change. -/
theorem zeroSizedRequestWritesNothing : Obligations.ZeroSizedRequestWritesNothing := by
  intro i s h0
  have hsrc : requestSrcReq i ≤ s.srcLen := (requestSrcReq_of_empty h0).trans_le (Nat.zero_le _)
  have hdst : requestDstReq i ≤ s.dstLen := (requestDstReq_of_empty h0).trans_le (Nat.zero_le _)
  refine ⟨_, exec_done hsrc hdst (not_requestUnset_of_empty h0 _ _), statusIs_endDone _ s, keepsRegisters_endDone _ s, ?_⟩
  rw [requestList_of_empty h0]
  rfl

/-! ### The last pixel at an offset (R142) -/

theorem inGrid_withChannel {w h bX bY x y ch ch' : Nat} (hgrid : InGrid w h bX bY x y ch) (hch' : ch' < 4) :
    InGrid w h bX bY x y ch' := by
  obtain ⟨hbX, hbY, hx, hy, -⟩ := hgrid
  exact ⟨hbX, hbY, hx, hy, hch'⟩

/-- The place of a block pixel in reference order: by `by`, then `bx`, then pixel number (R142). -/
def referenceKey (p : (Nat × Nat) × Nat × Nat) : ℕ ×ₗ ℕ ×ₗ ℕ :=
  toLex (p.1.2, toLex (p.1.1, 4 * p.2.2 + p.2.1))

/-- The block pixels of the grid, as `((bx, by), (x, y))`, at an offset (R120, R121). -/
def pixelsAt (w h o : Nat) : Finset ((Nat × Nat) × Nat × Nat) :=
  ((blockGrid w h).toFinset ×ˢ blockPixels.toFinset).filter fun p => doff w p.1.1 p.1.2 p.2.1 p.2.2 = o

theorem mem_pixelsAt {w h o bX bY x y : Nat} :
    ((bX, bY), (x, y)) ∈ pixelsAt w h o ↔ InGrid w h bX bY x y 0 ∧ doff w bX bY x y = o := by
  simp only [pixelsAt, Finset.mem_filter, Finset.mem_product, List.mem_toFinset, mem_blockGrid, mem_blockPixels]
  exact and_congr_left' ⟨fun ⟨⟨hbX, hbY⟩, hx, hy⟩ => ⟨hbX, hbY, hx, hy, by decide⟩,
    fun ⟨hbX, hbY, hx, hy, _⟩ => ⟨⟨hbX, hbY⟩, hx, hy⟩⟩

/-- Of the pixels of the grid at one offset, one is last in reference order. -/
theorem exists_lastAtItsOffset {w h bX bY x y ch : Nat} (hgrid : InGrid w h bX bY x y ch) :
    ∃ bX' bY' x' y', InGrid w h bX' bY' x' y' ch ∧ doff w bX' bY' x' y' = doff w bX bY x y ∧
      LastAtItsOffset w h bX' bY' x' y' := by
  obtain ⟨⟨⟨bX', bY'⟩, x', y'⟩, hmem, hmax⟩ := (pixelsAt w h (doff w bX bY x y)).exists_max_image referenceKey
    ⟨_, mem_pixelsAt.2 ⟨inGrid_withChannel hgrid (by decide), rfl⟩⟩
  obtain ⟨hgrid', hoff⟩ := mem_pixelsAt.1 hmem
  obtain ⟨-, -, -, -, hch⟩ := hgrid
  refine ⟨bX', bY', x', y', inGrid_withChannel hgrid' hch, hoff, fun bX'' bY'' x'' y'' hgrid'' hoff'' => ?_⟩
  simpa only [referenceKey, Prod.Lex.toLex_le_toLex] using hmax _ (mem_pixelsAt.2 ⟨hgrid'', hoff''.trans hoff⟩)

/-! ### DXT1 with either black alpha (R67, R130) -/

/-- The black alpha is in no color byte. -/
theorem dxt1Byte_color (ba ba' : Nat) (s : State) (w bX bY x y : Nat) {ch : Nat} (hch : ch ≠ 3) :
    dxt1Byte ba s w bX bY x y ch = dxt1Byte ba' s w bX bY x y ch := by
  simp only [dxt1Byte, if_neg hch]

/-- A pixel's alpha is the black alpha exactly where its color index is 3. -/
theorem dxt1Byte_alpha (ba : Nat) (s : State) (w bX bY x y : Nat) : dxt1Byte ba s w bX bY x y 3 =
    if colorIdx s.cfg.colorIndexOrder (srcAt s (8 * (bY * ceilDiv4 w + bX) + 4 + y)) x = 3 then ba else 255 := rfl

/-- What makes a DXT1 request ready makes one of DXT1_ONEBITALPHA ready: neither has an alpha entry that could be
unset. -/
theorem dxtReady_oneBitAlpha {w h : Nat} {s : State} (hready : DxtReady (.dxt1 w h) s) (n : Nat) :
    DxtReady (.dxt1OneBitAlpha w h) { s with draws := n } := by
  obtain ⟨hs, hd, -⟩ := hready
  exact ⟨hs, hd, fun _ _ _ _ _ _ => Option.some_ne_none _⟩

/-- The window `D` after a DXT1 request with black alpha `ba`, the free values being those of a draw. -/
def dxt1Window (ba : Byte) (w h : Nat) (s : State) (draw : Nat) : Memory :=
  commit s.cfg.writeOrder draw (dxt1List ba w h s.cfg s.src) s.dst

theorem dst_endDone_dxt1 (w h : Nat) (s : State) :
    (s.endDone (requestList s.cfg s.src (.dxt1 w h))).dst = dxt1Window 255 w h s s.draws := rfl

theorem dst_endDone_dxt1OneBitAlpha (w h : Nat) (s : State) (n : Nat) :
    (({ s with draws := n } : State).endDone (requestList s.cfg s.src (.dxt1OneBitAlpha w h))).dst =
      dxt1Window 0 w h s n := rfl

section

variable {w h : Nat} {s : State} (hwf : s.dst.wf = true)
include hwf

/-- In any order, an alpha byte of a block pixel ends as 255 or the black alpha. -/
theorem read_dxt1Window_alpha (ba : Byte) (draw : Nat) {bX bY x y : Nat} (hgrid : InGrid w h bX bY x y 3) :
    (dxt1Window ba w h s draw).read (doff w bX bY x y + 3) = 255 ∨
      (dxt1Window ba w h s draw).read (doff w bX bY x y + 3) = ba := by
  obtain ⟨hbX, hbY, hx, hy, hch⟩ := hgrid
  obtain ⟨bX', -, bY', -, x', -, y', -, ch', hch', hoff, hread⟩ :=
    (writes_dxt1List ba w h s.cfg s.src).read_mem s.cfg.writeOrder draw hwf hbX hbY hx hy hch
  obtain rfl : ch' = 3 := by
    unfold doff at hoff
    omega
  rw [dxt1Window, hread]
  simp only [pixelByte, dxt1Pixel, dxt1Table_alpha]
  split
  · exact .inr rfl
  · exact .inl rfl

/-- An offset of no block pixel keeps its byte. -/
theorem read_dxt1Window_other (ba : Byte) (draw : Nat) {o : Nat}
    (ho : ∀ bX bY x y ch, InGrid w h bX bY x y ch → o ≠ doff w bX bY x y + ch) :
    (dxt1Window ba w h s draw).read o = s.dst.read o :=
  (writes_dxt1List ba w h s.cfg s.src).read_other _ draw hwf
    fun bX hbX bY hbY x hx y hy ch hch => ho bX bY x y ch ⟨hbX, hbY, hx, hy, hch⟩

variable (hdec : s.cfg.writeOrder = .reference ∨ w % 4 = 0)
include hdec

/-- Where the order decides, a byte of the pixel last written at its offset is that pixel's (R45, R142): under
`REFERENCE` for every `W`, and with `W` a multiple of 4 because no other pixel is there. -/
theorem read_dxt1Window_last (ba : Byte) (draw : Nat) {bX bY x y ch : Nat} (hgrid : InGrid w h bX bY x y ch)
    (hlast : LastAtItsOffset w h bX bY x y) :
    ((dxt1Window ba w h s draw).read (doff w bX bY x y + ch)).toNat = dxt1Byte ba.toNat s w bX bY x y ch := by
  obtain ⟨hbX, hbY, hx, hy, hch⟩ := hgrid
  rw [← dxt1Pixel_byte ba s w bX bY x hy hch]
  refine congrArg BitVec.toNat ?_
  unfold dxt1Window
  rcases hdec with href | hw4
  · rw [href]
    exact read_commit_last_blockList4 draw
      (fun bX bY => dxt1Pixel ba s.cfg (sourceBlock s.src 8 (blockIndex w bX bY))) hbX hbY hx hy hch
      (fun bX' hbX' bY' hbY' x' hx' y' hy' => hlast bX' bY' x' y' ⟨hbX', hbY', hx', hy', by decide⟩) hwf
  · exact (writes_dxt1List ba w h s.cfg s.src).read_aligned hw4 _ draw hwf hbX hbY hx hy hch

/-- Where the order decides, the alpha of the pixel last written at its offset is the black alpha exactly where its color
index is 3. -/
theorem read_dxt1Window_last_alpha (ba : Byte) (draw : Nat) {bX bY x y : Nat} (hgrid : InGrid w h bX bY x y 3)
    (hlast : LastAtItsOffset w h bX bY x y) : (dxt1Window ba w h s draw).read (doff w bX bY x y + 3) =
      if colorIdx s.cfg.colorIndexOrder (srcAt s (8 * (bY * ceilDiv4 w + bX) + 4 + y)) x = 3 then ba else 255 := by
  refine BitVec.eq_of_toNat_eq ?_
  rw [read_dxt1Window_last hwf hdec ba draw hgrid hlast, dxt1Byte_alpha]
  split <;> rfl

/-- Where the order decides, the two formats leave the same byte, or an alpha byte 255 and 0. -/
theorem read_dxt1Window_eq_or (n n' o : Nat) :
    (dxt1Window 0 w h s n').read o = (dxt1Window 255 w h s n).read o ∨
      (o % 4 = 3 ∧ (dxt1Window 255 w h s n).read o = 255 ∧ (dxt1Window 0 w h s n').read o = 0) := by
  by_cases hin : ∃ bX bY x y ch, InGrid w h bX bY x y ch ∧ o = doff w bX bY x y + ch
  · obtain ⟨_, _, _, _, ch, hgrid₀, rfl⟩ := hin
    obtain ⟨bX, bY, x, y, hgrid, hoff, hlast⟩ := exists_lastAtItsOffset hgrid₀
    rw [← hoff]
    by_cases h3 : ch = 3
    · subst h3
      have hlane : (doff w bX bY x y + 3) % 4 = 3 := by
        unfold doff
        omega
      rw [read_dxt1Window_last_alpha hwf hdec 0 n' hgrid hlast, read_dxt1Window_last_alpha hwf hdec 255 n hgrid hlast,
        ite_self]
      split
      · exact .inr ⟨hlane, rfl, rfl⟩
      · exact .inl rfl
    · refine .inl (BitVec.eq_of_toNat_eq ?_)
      rw [read_dxt1Window_last hwf hdec 0 n' hgrid hlast, read_dxt1Window_last hwf hdec 255 n hgrid hlast]
      exact dxt1Byte_color _ _ s w bX bY x y h3
  · have hother : ∀ bX bY x y ch, InGrid w h bX bY x y ch → o ≠ doff w bX bY x y + ch :=
      fun bX bY x y ch hgrid ho => hin ⟨bX, bY, x, y, ch, hgrid, ho⟩
    exact .inl ((read_dxt1Window_other hwf 0 n' hother).trans (read_dxt1Window_other hwf 255 n hother).symm)

end

/-- Settles O40: both requests commit the same pixels but for the black alpha of color index 3. -/
theorem oneBitAlphaDiffersOnlyInAlpha : Obligations.OneBitAlphaDiffersOnlyInAlpha := by
  intro w h s n hwf hready
  refine ⟨_, _, exec_of_dxtReady hready, exec_of_dxtReady (dxtReady_oneBitAlpha hready n), statusIs_endDone _ s,
    statusIs_endDone _ { s with draws := n }, ?_⟩
  rw [dst_endDone_dxt1, dst_endDone_dxt1OneBitAlpha w h s n]
  refine ⟨fun bX bY x y hgrid => ⟨?_, read_dxt1Window_alpha hwf 0 n hgrid⟩, fun hdec => ⟨?_, ?_, ?_⟩⟩
  · exact or_self_iff.1 (read_dxt1Window_alpha hwf 255 s.draws hgrid)
  · intro o hcolor
    exact (read_dxt1Window_eq_or hwf hdec s.draws n o).resolve_right fun ⟨halpha, _⟩ => hcolor halpha
  · intro o
    exact (read_dxt1Window_eq_or hwf hdec s.draws n o).imp_right And.right
  · intro bX bY x y hgrid hlast
    refine ⟨fun ch hch => ?_, read_dxt1Window_last_alpha hwf hdec 0 n hgrid hlast⟩
    have hgridch := inGrid_withChannel hgrid (show ch < 4 by omega)
    refine ⟨read_dxt1Window_last hwf hdec 255 s.draws hgridch hlast, ?_⟩
    rw [read_dxt1Window_last hwf hdec 0 n hgridch hlast]
    exact dxt1Byte_color _ _ s w bX bY x y (by omega)

end Sys2Proof.Machine
end

section
/-! The extreme values of the 565 unpacker's channels (R86). -/

namespace Sys2Proof.Machine

open Sys2Proof.Claims

/-- Upsampling a 5-bit field is strictly increasing, so it meets 0 and 255 at one field each. -/
theorem up5_extremes (f : Nat) : (up5 f = 0 ↔ f = 0) ∧ (up5 f = 255 ↔ f = 31) := by
  unfold up5
  omega

/-- Upsampling a 6-bit field is strictly increasing, so it meets 0 and 255 at one field each. -/
theorem up6_extremes (f : Nat) : (up6 f = 0 ↔ f = 0) ∧ (up6 f = 255 ↔ f = 63) := by
  unfold up6
  omega

/-- Settles O24: each channel is its upsampled field, and upsampling meets 0 and 255 at one field each. -/
theorem unpack565ClosedForm : Obligations.Unpack565ClosedForm := by
  intro a b r5 g6 b5
  obtain ⟨hr, hg, hb⟩ := unpack565_toNat a b
  simp only [BitVec.toNat_eq, hr, hg, hb]
  exact ⟨⟨rfl, rfl, rfl⟩, (up5_extremes r5).1, (up6_extremes g6).1, (up5_extremes b5).1,
    (up5_extremes r5).2, (up6_extremes g6).2, (up5_extremes b5).2⟩

end Sys2Proof.Machine
end

section
/-! The packed-16 formats: every pixel of a request, from the channels that the spec's list names (R100 to R106). -/

namespace Sys2Proof.Machine

open Sys2Proof.Claims

/-- Only the packed-16 requests have a list of channels (R101 to R106). -/
theorem not_isDxt_of_packedChannels {i : Instr} {v : Nat} (hne : packedChannels i v ≠ []) : ¬isDxt i := by
  cases i with
  | dxt1 | dxt3 | dxt5 | dxt1OneBitAlpha => exact absurd rfl hne
  | _ => simp [isDxt, fmtOf]

/-- What a packed-16 request answers when both windows have room (R66, R100). -/
theorem exec_packed_done {i : Instr} {s : State} (hi : ¬isDxt i) (hs : srcReqPacked i.width i.height ≤ s.srcLen)
    (hd : dstReqPacked i.width i.height ≤ s.dstLen) :
    exec i s = .next (s.endDone (requestList s.cfg s.src i)) := by
  cases i with
  | dxt1 | dxt3 | dxt5 | dxt1OneBitAlpha => exact absurd (by simp [isDxt, fmtOf]) hi
  | _ => exact runPacked_done hs hd

/-- Byte `ch` of a pixel after the commit is channel `ch` of its 16-bit source value (R47, R100). -/
theorem read_packed_commit_channel {P : Byte → Byte → Pixel} {channels : Nat → List Nat} (hP : GivesChannels P channels)
    {w h : Nat} {s : State} (hwf : s.dst.wf = true) {p ch : Nat} (hp : p < w * h) (hch : ch < 4) :
    ((s.endDone (packedList P w h s.src)).dst.read (4 * p + ch)).toNat =
      (channels (le16 (s.src.read (2 * p)) (s.src.read (2 * p + 1)))).getD ch 0 := by
  rw [read_packed_commit P hwf hp hch]
  exact hP _ _ ch hch

/-- Requests whose channels are `R`, `G`, `B`, `A` of the source value decode every pixel to them, in place: each byte
of a pixel is written once, and none at or beyond `DstReq` (R46, R49, R100). -/
theorem packedResult_of_channels {mk : Nat → Nat → Instr} {R G B A : Nat → Nat}
    (hsize : ∀ w h, (mk w h).width = w ∧ (mk w h).height = h)
    (hchannels : ∀ w h v, packedChannels (mk w h) v = [R v, G v, B v, A v]) : PackedResult mk R G B A := by
  intro w h s hwf hs hd
  obtain ⟨hw, hh⟩ := hsize w h
  have hpacked : ¬isDxt (mk w h) := not_isDxt_of_packedChannels (v := 0) (by simp [hchannels])
  have hexec := exec_packed_done (s := s) hpacked (by rwa [hw, hh]) (by rwa [hw, hh])
  obtain ⟨P, hlist, hP⟩ := packedFunction_of_not_dxt hpacked
  rw [hlist, hw, hh] at hexec
  rw [funext (hchannels w h)] at hP
  refine ⟨_, hexec, statusIs_endDone _ s, keepsRegisters_endDone _ s, fun p hp => ?_, fun o ho => ?_⟩
  · have hbyte := fun ch (hch : ch < 4) => read_packed_commit_channel hP hwf hp hch
    exact ⟨hbyte 0 (by decide), hbyte 1 (by decide), hbyte 2 (by decide), hbyte 3 (by decide)⟩
  · exact read_packed_commit_above P hwf ho

/-- Settles O28: the channels of `RGB565` are those of R102. -/
theorem rgb565DecodesEveryPixel : Obligations.Rgb565DecodesEveryPixel :=
  packedResult_of_channels (fun _ _ => ⟨rfl, rfl⟩) fun _ _ _ => rfl

/-- Settles O29: the channels of `BGR565` are those of R103. -/
theorem bgr565DecodesEveryPixel : Obligations.Bgr565DecodesEveryPixel :=
  packedResult_of_channels (fun _ _ => ⟨rfl, rfl⟩) fun _ _ _ => rfl

/-- Settles O30: the channels of `BGRA4444` are those of R104. -/
theorem bgra4444DecodesEveryPixel : Obligations.Bgra4444DecodesEveryPixel :=
  packedResult_of_channels (fun _ _ => ⟨rfl, rfl⟩) fun _ _ _ => rfl

/-- Settles O31: the channels of `BGRA5551` are those of R105. -/
theorem bgra5551DecodesEveryPixel : Obligations.Bgra5551DecodesEveryPixel :=
  packedResult_of_channels (fun _ _ => ⟨rfl, rfl⟩) fun _ _ _ => rfl

/-- Settles O32: the channels of `BGRX5551` are those of R106. -/
theorem bgrx5551DecodesEveryPixel : Obligations.Bgrx5551DecodesEveryPixel :=
  packedResult_of_channels (fun _ _ => ⟨rfl, rfl⟩) fun _ _ _ => rfl

end Sys2Proof.Machine
end

section
/-! The tables that a block builds from its own bytes (R124 to R127, R135 to R138, R143, R144). -/

namespace Sys2Proof.Machine

open Sys2Proof.Claims

/-! ### The approximate comparison and the color table of a DXT1 block -/

/-- Settles O25: a numerically greater value is greater in one of its bytes, equal values agree in both, and where the
bytes disagree the high one decides the numeric order. -/
theorem approximateComparisonAgainstNumeric : Obligations.ApproximateComparisonAgainstNumeric := by
  intro s0 s1 s2 s3
  have h0 := s0.isLt
  have h2 := s2.isLt
  simp only [gt565_eq_decide, decide_eq_true_eq, decide_eq_false_iff_not, le16]
  refine ⟨fun hgt => ?_, fun heq => ?_, fun hlow hhigh => ⟨.inl hlow, ?_⟩⟩ <;> omega

theorem buildDxt1_four (blk : List Byte) (d : Datapath) : (buildDxt1 blk d).four =
    gt565 (blockByte blk 0) (blockByte blk 1) (blockByte blk 2) (blockByte blk 3) := by
  rw [buildDxt1_eq]

/-- Settles O26: a block builds the table `dxt1Table` of its bytes, and only the alpha of entry 3 is `BA`. -/
theorem dxt1BlockBuildsItsColorTable : Obligations.Dxt1BlockBuildsItsColorTable := by
  intro blk d b four t
  have hfour : gt565 (blockByte blk 0) (blockByte blk 1) (blockByte blk 2) (blockByte blk 3) = four :=
    gt565_eq_decide _ _ _ _
  have hct : t.ct = dxt1Table d.ba blk := buildDxt1_ct blk d
  refine ⟨(buildDxt1_four blk d).trans hfour, buildDxt1_ba blk d, fun idx ch hch => ?_, fun idx => ?_⟩
  · rw [hct, dxt1Table_channel _ _ _ hch, hfour]
    rfl
  · rw [hct, dxt1Table_alpha]
    simp only [BitVec.toNat_eq]
    rfl

/-! ### The alpha table of a DXT5 block -/

theorem buildAlpha_a8mode (alpha7 : Option Byte) (blk : List Byte) (d : Datapath) : (buildAlpha alpha7 blk d).a8mode =
    decide ((blockByte blk 0).toNat ≥ (blockByte blk 1).toNat) := rfl

/-- The entries of the table that a DXT5 block builds, by number (R135 to R138). -/
theorem buildAlpha_entry (alpha7 : Option Byte) (blk : List Byte) (d : Datapath) {i : Nat} (hi : i ≤ 7) :
    (alphaEntry (buildAlpha alpha7 blk d).atab (BitVec.ofNat 3 i)).map BitVec.toNat =
      alphaTableEntry alpha7 (blockByte blk 0).toNat (blockByte blk 1).toNat i := by
  rw [buildAlpha_atab, dxt5Table_entry, BitVec.toNat_ofNat, Nat.mod_eq_of_lt (by omega)]

section

variable (alpha7 : Option Byte) {a0 a1 i : Nat}

/-- An interpolated entry of the eight-value table (R136). -/
theorem alphaTableEntry_eight (h : a0 ≥ a1) (hi : 2 ≤ i) :
    alphaTableEntry alpha7 a0 a1 i = some (((8 - i) * a0 + (i - 1) * a1) / 7) := by
  rw [alphaTableEntry, if_neg (by omega), if_neg (by omega), if_pos h]

/-- With equal endpoints the seven steps of an entry add up to that value (R136). -/
theorem alphaTableEntry_equal (a : Nat) (hi : i ≤ 7) : alphaTableEntry alpha7 a a i = some a := by
  by_cases hend : i < 2
  · interval_cases i <;> rfl
  · have hsteps : 8 - i + (i - 1) = 7 := by omega
    rw [alphaTableEntry_eight alpha7 le_rfl (by omega), ← Nat.add_mul, hsteps, Nat.mul_div_cancel_left _ (by decide)]

/-- An interpolated entry of the six-value table (R137). -/
theorem alphaTableEntry_six (h : a0 < a1) (hi : 2 ≤ i) (hi5 : i ≤ 5) :
    alphaTableEntry alpha7 a0 a1 i = some (((6 - i) * a0 + (i - 1) * a1) / 5) := by
  rw [alphaTableEntry, if_neg (by omega), if_neg (by omega), if_neg (by omega), if_pos hi5]

/-- The two entries of the six-value table that are not interpolated (R137, R138). -/
theorem alphaTableEntry_six_top (h : a0 < a1) :
    alphaTableEntry alpha7 a0 a1 6 = some 0 ∧ alphaTableEntry alpha7 a0 a1 7 = alpha7.map BitVec.toNat := by
  simp [alphaTableEntry, h]

end

/-- Settles O27: every entry is that of the spec's table with the block's endpoints, in either mode. -/
theorem dxt5BlockBuildsItsAlphaTable : Obligations.Dxt5BlockBuildsItsAlphaTable := by
  intro alpha7 blk d a0 a1 t entry
  have hentry : ∀ i ≤ 7, entry i = alphaTableEntry alpha7 a0 a1 i := fun i hi => buildAlpha_entry alpha7 blk d hi
  refine ⟨buildAlpha_a8mode alpha7 blk d, hentry 0 (by decide), hentry 1 (by decide), fun hge i h2 h7 => ?_,
    fun heq i h7 => ?_, fun hlt i h2 h5 => ?_, fun hlt => ?_⟩
  · rw [hentry i h7, alphaTableEntry_eight alpha7 hge h2]
  · rw [hentry i h7, ← heq, alphaTableEntry_equal alpha7 a0 h7]
  · rw [hentry i (by omega), alphaTableEntry_six alpha7 hlt h2 h5]
  · rw [hentry 6 (by decide), hentry 7 (by decide)]
    exact alphaTableEntry_six_top alpha7 hlt

end Sys2Proof.Machine
end

section
/-! The DXT formats: every block of a request, and the bytes that no block pixel is written to (R120 to R141). -/

namespace Sys2Proof.Machine

open Sys2Proof.Claims

/-- A DXT request decodes every block: the commit leaves at each offset of a block pixel a value written there, which is
a byte of a block pixel at that offset, and keeps every other byte (R45, R46). -/
theorem dxtResult_of_isDxt {mk : Nat → Nat → Instr} (hsize : ∀ w h, (mk w h).width = w ∧ (mk w h).height = h)
    (hdxt : ∀ w h, isDxt (mk w h)) : DxtResult mk := by
  intro w h s hwf hready
  obtain ⟨pix, hwrites, hbyte⟩ := dxtPixels_of_isDxt s (hdxt w h)
  replace hbyte := hbyte (not_requestUnset_of_dxtReady hready)
  obtain ⟨hw, hh⟩ := hsize w h
  rw [hw, hh] at hwrites hbyte
  refine ⟨_, exec_of_dxtReady hready, statusIs_endDone _ s, keepsRegisters_endDone _ s, fun bX bY x y ch hgrid => ?_,
    fun o ho => ?_⟩
  · have hwritten := hwrites.mem_iff.2 ⟨bX, bY, x, y, ch, hgrid, rfl, rfl⟩
    obtain ⟨bX', bY', x', y', ch', hgrid', hoff, hread⟩ :=
      hwrites.mem_iff.1 (read_commit_mem s.cfg.writeOrder s.draws hwf hwritten)
    refine ⟨bX', bY', x', y', ch', hgrid', hoff.symm, ?_⟩
    rw [hbyte _ _ _ _ _ hgrid', State.endDone_dst, hread]
  · refine read_endDone_of_not_written hwf fun v hv => ?_
    obtain ⟨bX, bY, x, y, ch, hgrid, hoff, -⟩ := hwrites.mem_iff.1 hv
    exact ho bX bY x y ch hgrid hoff

/-- Settles O33: `DXT1` is one of the four DXT formats. -/
theorem dxt1DecodesEveryBlock : Obligations.Dxt1DecodesEveryBlock :=
  dxtResult_of_isDxt (fun _ _ => ⟨rfl, rfl⟩) fun _ _ => by simp [isDxt, fmtOf]

/-- Settles O34: `DXT1_ONEBITALPHA` is one of the four DXT formats. -/
theorem dxt1OneBitAlphaDecodesEveryBlock : Obligations.Dxt1OneBitAlphaDecodesEveryBlock :=
  dxtResult_of_isDxt (fun _ _ => ⟨rfl, rfl⟩) fun _ _ => by simp [isDxt, fmtOf]

/-- Settles O35: `DXT3` is one of the four DXT formats. -/
theorem dxt3DecodesEveryBlock : Obligations.Dxt3DecodesEveryBlock :=
  dxtResult_of_isDxt (fun _ _ => ⟨rfl, rfl⟩) fun _ _ => by simp [isDxt, fmtOf]

/-- Settles O36: `DXT5` is one of the four DXT formats, and a ready request selects no unset entry. -/
theorem dxt5DecodesEveryBlock : Obligations.Dxt5DecodesEveryBlock :=
  dxtResult_of_isDxt (fun _ _ => ⟨rfl, rfl⟩) fun _ _ => by simp [isDxt, fmtOf]

end Sys2Proof.Machine
end

section
/-! How a request ends: its outcome by the priority order of R165, and what refusals and faults leave alone (R160 to
R168). -/

namespace Sys2Proof.Machine

open Sys2Proof.Claims

/-! ### Every step answers a next state (R160, R168, R181) -/

/-- A step that executes a request ends it, whatever its outcome (R168). -/
theorem inProgress_of_executing {s t : State} (hx : Executing s) (h : step s = .next t) : t.inProgress = false := by
  rw [step_executing hx.1 hx.2] at h
  rcases execute_cases s with ⟨r, he⟩ | ⟨c, he⟩ | ⟨wl, -, he⟩ <;> rw [he] at h <;> cases h
  · exact State.endRefused_inProgress r s
  · exact State.endFault_inProgress c s
  · exact State.endDone_inProgress wl s

/-- With no request and nothing from the host, the block waits (R181). -/
theorem step_waits {s : State} (hidle : s.inProgress = false) (hev : s.events = []) : step s = .next s := by
  rw [step_hostTurn (.inl hidle), hostTurn_nil hev]

/-- Settles O6: a step that executes ends the request, and an idle step with no event is the identity. -/
theorem everyStepAnswersNext : Obligations.EveryStepAnswersNext := by
  intro s
  obtain ⟨t, ht⟩ := step_next s
  refine ⟨t, ht, fun hx => inProgress_of_executing hx ht, fun hidle hev => ?_⟩
  rw [step_waits hidle hev] at ht
  cases ht
  rfl

/-! ### STATUS at the end of a request (R24, R25) -/

/-- A state whose `STATUS` records an outcome has that outcome's codes. -/
theorem statusIs_of_recordOutcome {s t : State} {o : RequestOutcome} (h : t.status = recordOutcome o s.status) :
    StatusIs s t (outcomeCode o).toNat (causeCode o).toNat := by
  have hbad : outcomeIsBad o = decide ((outcomeCode o).toNat ≠ 1) := by cases o <;> rfl
  simp [StatusIs, h, hbad]

theorem statusIs_endFault (c : FaultCause) (s : State) :
    StatusIs s (s.endFault c) 2 (causeCode (.fault c)).toNat :=
  statusIs_of_recordOutcome (State.endFault_status c s)

theorem statusIs_endRefused (r : RefuseReason) (s : State) :
    StatusIs s (s.endRefused r) 3 (causeCode (.refused r)).toNat :=
  statusIs_of_recordOutcome (State.endRefused_status r s)

/-! ### Refusals (R63, R64, R161) -/

/-- Reserved bits are checked before the format (R165). -/
theorem decode_of_reserved {cmd : BitVec 64} (h : bits cmd.toNat 8 8 ≠ 0 ∨ bits cmd.toNat 48 16 ≠ 0) :
    decode cmd = .error .reservedBits := by
  rw [← cmdRsv0_toNat, ← cmdRsv1_toNat] at h
  refine if_pos (h.imp ?_ ?_) <;> exact mt (congrArg BitVec.toNat)

/-- The one other way not to decode is a format code that is none of the nine (R63). -/
theorem decode_of_badFormat {cmd : BitVec 64} (h0 : bits cmd.toNat 8 8 = 0) (h1 : bits cmd.toNat 48 16 = 0)
    (hf : bits cmd.toNat 0 8 ∉ fmtCodes) : decode cmd = .error .badFormat := by
  have hnone : ¬∃ i, decode cmd = .ok i := fun hdec => hf (exists_decode_iff_bits.1 hdec).2.2
  rw [← cmdRsv0_toNat] at h0
  rw [← cmdRsv1_toNat] at h1
  unfold decode at hnone ⊢
  rw [if_neg (by simp [BitVec.toNat_eq, h0, h1])] at hnone ⊢
  cases hq : requestOfFmt (cmdFmt cmd) (cmdWidth cmd).toNat (cmdHeight cmd).toNat with
  | none => rfl
  | some i => exact absurd ⟨i, by rw [hq]⟩ hnone

theorem step_of_refused {s : State} (hx : Executing s) {r : RefuseReason} (hdec : decode s.cmd = .error r) :
    step s = .next (s.endRefused r) := by
  rw [step_executing hx.1 hx.2, execute_of_refused hdec]

/-- A refused request records its reason, keeps the registers and `D`, and would end so with any `S` (R161). -/
theorem step_refused_frame {s : State} (hx : Executing s) {r : RefuseReason} (hdec : decode s.cmd = .error r) :
    ∃ t, step s = .next t ∧ StatusIs s t 3 (causeCode (.refused r)).toNat ∧ KeepsRegisters s t ∧ t.dst = s.dst ∧
      ∀ m, ∃ t', step { s with src := m } = .next t' ∧ t'.status = t.status ∧ t'.dst = t.dst :=
  ⟨_, step_of_refused hx hdec, statusIs_endRefused r s, ⟨rfl, rfl, rfl, rfl, rfl, rfl, rfl⟩, rfl,
    fun m => ⟨_, step_of_refused (s := { s with src := m }) hx hdec, rfl, rfl⟩⟩

/-- Settles O7: a word with reserved bits set, or else with a code outside the nine, decodes to its reason. -/
theorem refusedRequestTouchesNothing : Obligations.RefusedRequestTouchesNothing :=
  fun _ hx => ⟨fun hreserved => step_refused_frame hx (decode_of_reserved hreserved),
    fun ⟨h0, h1, hf⟩ => step_refused_frame hx (decode_of_badFormat h0 h1 hf)⟩

/-! ### Faults (R162 to R164, R166) -/

/-- A request that ends in a fault records the cause and keeps the registers and the bytes outside the window. -/
theorem exec_fault_frame {i : Instr} {s : State} (hwf : s.dst.wf = true) {c : FaultCause}
    (h : exec i s = .next (s.endFault c)) :
    ∃ t, exec i s = .next t ∧ StatusIs s t 2 (causeCode (.fault c)).toNat ∧ KeepsRegisters s t ∧
      ∀ o, s.dstLen ≤ o → t.dst.read o = s.dst.read o :=
  ⟨_, h, statusIs_endFault c s, keepsRegisters_endFault c s, fun _ ho => read_endFault_above hwf c ho⟩

/-- A DXT request with a byte that is unset has a pixel that selects the unset alpha entry: every byte of the others is
set (R138). -/
theorem requestUnset_of_dxtByte_eq_none {i : Instr} {s : State} (hi : isDxt i) {bX bY x y ch : Nat}
    (hgrid : InGrid i.width i.height bX bY x y ch) (hnone : dxtByte i s bX bY x y ch = none) :
    requestUnset s.cfg s.src i := by
  obtain ⟨pix, -, hbyte⟩ := dxtPixels_of_isDxt s hi
  by_contra hset
  rw [hbyte hset _ _ _ _ _ hgrid] at hnone
  cases hnone

/-- Settles O9: each condition ends the request in its fault, and a fault scrambles the window alone. -/
theorem faultKeepsEverythingButTheWindow : Obligations.FaultKeepsEverythingButTheWindow := by
  intro i s hwf
  rw [← requestSrcReq_eq, ← requestDstReq_eq]
  refine ⟨fun hs => exec_fault_frame hwf (exec_srcRange hs), fun hs hd => exec_fault_frame hwf (exec_dstRange hs hd), ?_⟩
  rintro hi hs hd ⟨bX, bY, x, y, ch, hgrid, hnone⟩
  exact exec_fault_frame hwf (exec_unset hs hd (requestUnset_of_dxtByte_eq_none hi hgrid hnone))

/-! ### The priority order (R165) -/

/-- A request selects the unset alpha entry exactly when it is a DXT5 one with a pixel whose alpha the spec leaves unset
(R138). -/
theorem requestUnset_iff {i : Instr} {s : State} : requestUnset s.cfg s.src i ↔
    fmtOf i = 0x0F ∧ ∃ bX bY x y, InGrid i.width i.height bX bY x y 3 ∧
      dxt5AlphaByte s i.width bX bY x y = none := by
  cases i with
  | dxt5 w h =>
    simp only [requestUnset, blockUnset, Prod.exists, mem_blockGrid, fmtOf, true_and, ← dxt5Alpha_toNat,
      Option.map_eq_none_iff]
    constructor
    · rintro ⟨bX, bY, ⟨hbX, hbY⟩, x, hx, y, hy, hnone⟩
      exact ⟨bX, bY, x, y, ⟨hbX, hbY, hx, hy, by decide⟩, hnone⟩
    · rintro ⟨bX, bY, x, y, ⟨hbX, hbY, hx, hy, -⟩, hnone⟩
      exact ⟨bX, bY, ⟨hbX, hbY⟩, x, hx, y, hy, hnone⟩
  | _ => simp [requestUnset, fmtOf]

/-- A word that is not refused runs a request with the requirements that the fields of `CMD` give (R66, R162, R163). -/
theorem step_runs_request {s : State} (hx : Executing s)
    (hr : ¬(bits s.cmd.toNat 8 8 ≠ 0 ∨ bits s.cmd.toNat 48 16 ≠ 0)) (hb : ¬bits s.cmd.toNat 0 8 ∉ fmtCodes) :
    ∃ i, step s = exec i s ∧
      requestSrcReq i = srcReqOf (bits s.cmd.toNat 0 8) (bits s.cmd.toNat 16 16) (bits s.cmd.toNat 32 16) ∧
      requestDstReq i = dstReqOf (bits s.cmd.toNat 0 8) (bits s.cmd.toNat 16 16) (bits s.cmd.toNat 32 16) ∧
      (requestUnset s.cfg s.src i ↔ bits s.cmd.toNat 0 8 = 0x0F ∧ ∃ bX bY x y,
        InGrid (bits s.cmd.toNat 16 16) (bits s.cmd.toNat 32 16) bX bY x y 3 ∧
          dxt5AlphaByte s (bits s.cmd.toNat 16 16) bX bY x y = none) := by
  simp only [not_or, not_not] at hr hb
  obtain ⟨i, hdec⟩ := exists_decode_iff_bits.2 ⟨hr.1, hr.2, hb⟩
  obtain ⟨-, -, hf, hw, hh⟩ := decode_eq_ok_iff_bits.1 hdec
  rw [← hf, ← hw, ← hh]
  exact ⟨i, stepRunsTheDecodedRequest s i hx hdec, requestSrcReq_eq i, requestDstReq_eq i, requestUnset_iff⟩

/-- The outcome of the request in `CMD` is the same with any `D` and any `S` that agrees below `SrcReq` (R42, R162). -/
theorem step_status_congr {s t : State} (hx : Executing s) (ht : step s = .next t) {m : Memory} (d : Memory)
    (hm : ∀ o, o < srcReqOf (bits s.cmd.toNat 0 8) (bits s.cmd.toNat 16 16) (bits s.cmd.toNat 32 16) →
      m.read o = s.src.read o) :
    ∃ t', step { s with src := m, dst := d } = .next t' ∧ t'.status = t.status := by
  have hx' : Executing { s with src := m, dst := d } := hx
  cases hdec : decode s.cmd with
  | error r =>
    rw [step_of_refused hx hdec] at ht
    cases ht
    exact ⟨_, step_of_refused hx' hdec, rfl⟩
  | ok i =>
    obtain ⟨-, -, hf, hw, hh⟩ := decode_eq_ok_iff_bits.1 hdec
    rw [← hf, ← hw, ← hh] at hm
    rw [stepRunsTheDecodedRequest s i hx hdec] at ht
    rw [stepRunsTheDecodedRequest _ i hx' hdec]
    rcases exec_ends_alike (i := i) (s := s) (s' := { s with src := m, dst := d }) rfl rfl rfl
      (requestSrcReq_eq i ▸ hm) with ⟨c, h, h'⟩ | ⟨-, -, h, h'⟩ <;> rw [h] at ht <;> cases ht <;> exact ⟨_, h', rfl⟩

/-- What a step is known to end in is what it ends in. -/
theorem statusIs_of_step {s t u : State} {outcome cause : Nat} (ht : step s = .next t) (hu : step s = .next u)
    (h : StatusIs s u outcome cause) : StatusIs s t outcome cause := by
  rw [hu] at ht
  cases ht
  exact h

/-- Settles O8: the decoder makes the first two checks, the request it decodes to the other three. -/
theorem requestEndsByPriority : Obligations.RequestEndsByPriority := by
  intro s hx f w h reserved badFormat srcShort dstShort unset
  obtain ⟨t, ht⟩ := step_next s
  refine ⟨t, ht, fun hr => ?_, fun hr hb => ?_, fun hr hb hs => ?_, fun hr hb hs hd => ?_, fun hr hb hs hd hu => ?_,
    fun hr hb hs hd hu => ?_, fun m d hm => step_status_congr hx ht d hm⟩
  · exact statusIs_of_step ht (step_of_refused hx (decode_of_reserved hr)) (statusIs_endRefused _ s)
  · obtain ⟨h0, h1⟩ := not_or.1 hr
    exact statusIs_of_step ht (step_of_refused hx (decode_of_badFormat (not_not.1 h0) (not_not.1 h1) hb))
      (statusIs_endRefused _ s)
  all_goals obtain ⟨i, hrun, hsrc, hdst, hunset⟩ := step_runs_request hx hr hb
  · exact statusIs_of_step ht (hrun.trans (exec_srcRange (hsrc ▸ hs))) (statusIs_endFault _ s)
  all_goals have hsrc_le : requestSrcReq i ≤ s.srcLen := hsrc ▸ Nat.le_of_not_lt hs
  · exact statusIs_of_step ht (hrun.trans (exec_dstRange hsrc_le (hdst ▸ hd))) (statusIs_endFault _ s)
  all_goals have hdst_le : requestDstReq i ≤ s.dstLen := hdst ▸ Nat.le_of_not_lt hd
  · exact statusIs_of_step ht (hrun.trans (exec_unset hsrc_le hdst_le (hunset.2 hu))) (statusIs_endFault _ s)
  · exact statusIs_of_step ht (hrun.trans (exec_done hsrc_le hdst_le (mt hunset.1 hu))) (statusIs_endDone _ s)

/-! ### Bytes of `S` at or beyond `SrcReq` (R162) -/

/-- Settles O18: both runs end in the same fault, or commit the same write list. -/
theorem sourceBeyondTheRequirementIsNotRead : Obligations.SourceBeyondTheRequirementIsNotRead := by
  intro i s m n hwf hm
  rw [← requestSrcReq_eq] at hm
  rcases exec_ends_alike (i := i) (s := s) (s' := { s with src := m, draws := n }) rfl rfl rfl hm with
    ⟨c, h, h'⟩ | ⟨-, hunset, h, h'⟩
  · exact ⟨_, _, h, h', rfl, fun hdone => absurd hdone (statusOutcome_endFault_ne_done c s)⟩
  · exact ⟨_, _, h, h', rfl, fun _ => writtenAlike_commit hunset s.draws n hwf hwf⟩

/-! ### What an edge image needs of `D` (R163, R184, R185) -/

/-- `DstReq` of a DXT image that is not empty: its rows padded to whole blocks, and what the last row overflows by. -/
theorem dstNeed_of_isDxt {i : Instr} (hi : isDxt i) (hw : 0 < i.width) (hh : 0 < i.height) :
    dstNeed i = 4 * (i.width * (4 * ceilDiv4 i.height) + (4 * ceilDiv4 i.width - i.width)) := by
  have hrow : i.width * (4 * ceilDiv4 i.height - 1) + i.width = i.width * (4 * ceilDiv4 i.height) := by
    rw [← Nat.mul_succ, Nat.succ_eq_add_one, Nat.sub_add_cancel (by unfold ceilDiv4; omega)]
  have hpad : i.width ≤ 4 * ceilDiv4 i.width := by
    unfold ceilDiv4
    omega
  have hfmt : fmtOf i ∉ [0x04, 0x11, 0x12, 0x13, 0x15] := by
    cases i with
    | dxt1 | dxt3 | dxt5 | dxt1OneBitAlpha => simp [fmtOf]
    | _ => exact absurd hi (by simp [isDxt, fmtOf])
  rw [dstNeed, dstReqOf, if_neg (by omega), if_neg hfmt]
  omega

/-- Sizes that are multiples of 4 need no padding. -/
theorem dstNeed_of_aligned {i : Instr} (hi : isDxt i) (hw : 0 < i.width) (hh : 0 < i.height) (hw4 : i.width % 4 = 0)
    (hh4 : i.height % 4 = 0) : dstNeed i = 4 * i.width * i.height := by
  have hcw : 4 * ceilDiv4 i.width = i.width := by
    unfold ceilDiv4
    omega
  have hch : 4 * ceilDiv4 i.height = i.height := by
    unfold ceilDiv4
    omega
  rw [dstNeed_of_isDxt hi hw hh, hcw, hch, Nat.sub_self, Nat.add_zero, Nat.mul_assoc]

/-- A height that is no multiple of 4 needs a further row at least, such a width a further pixel. -/
theorem lt_dstNeed_of_edge {i : Instr} (hi : isDxt i) (hw : 0 < i.width) (hh : 0 < i.height)
    (hedge : i.width % 4 ≠ 0 ∨ i.height % 4 ≠ 0) : 4 * i.width * i.height < dstNeed i := by
  rw [dstNeed_of_isDxt hi hw hh, Nat.mul_assoc]
  refine Nat.mul_lt_mul_of_pos_left ?_ (by decide)
  rcases hedge with hw4 | hh4
  · have hrows : i.width * i.height ≤ i.width * (4 * ceilDiv4 i.height) :=
      Nat.mul_le_mul_left _ (by unfold ceilDiv4; omega)
    have hpad : i.width < 4 * ceilDiv4 i.width := by
      unfold ceilDiv4
      omega
    omega
  · have hrows : i.width * i.height < i.width * (4 * ceilDiv4 i.height) :=
      Nat.mul_lt_mul_of_pos_left (by unfold ceilDiv4; omega) hw
    omega

/-- Settles O39: the padding of an edge image does not fit in a window of its pixels alone. -/
theorem edgeImageNeedsMoreThanItsPixels : Obligations.EdgeImageNeedsMoreThanItsPixels := by
  intro i s hi hw hh hlen hs
  refine ⟨dstNeed_of_aligned hi hw hh, fun hedge => ?_⟩
  have hlt := lt_dstNeed_of_edge hi hw hh hedge
  refine ⟨hlt, _, exec_dstRange (requestSrcReq_eq i ▸ hs) ?_, statusIs_endFault _ s⟩
  rwa [requestDstReq_eq, hlen]

end Sys2Proof.Machine
end

section
/-! What the host does: the events it makes happen, a request from its issue to its end, and the reset (R180, R183); and
the edge-block hazard under REFERENCE (R142, R184). -/

namespace Sys2Proof.Machine

open Sys2Proof.Claims

/-! ### The host's events (R180, R183) -/

/-- The host's next event happens where the block is idle, and a reset happens at any time (R180, R183). -/
theorem step_takeEvent {s : State} {e : HostEvent} {es : List HostEvent} (hev : s.events = e :: es)
    (h : s.inProgress = false ∨ e = .reset) : step s = .next (({ s with events := es } : State).takeEvent e) := by
  rw [step_hostTurn (h.imp_right fun he => (resetNext_cons hev).trans (isReset_iff.2 he)), hostTurn_cons hev]

/-- Settles O23: a placed window is the one built from the given cells. -/
theorem windowHoldsWhatTheHostPlaced : Obligations.WindowHoldsWhatTheHostPlaced := by
  intro s cells es hidle
  refine ⟨fun hev => ⟨_, step_takeEvent hev (.inl hidle), Memory.wf_ofCells cells, rfl, rfl,
      ⟨rfl, rfl, rfl, rfl, rfl, rfl, hidle⟩, ?_, fun o ho => Memory.read_ofCells_other ho⟩,
    fun hev => ⟨_, step_takeEvent hev (.inl hidle), Memory.wf_ofCells cells, rfl,
      ⟨rfl, rfl, rfl, rfl, rfl, rfl, hidle⟩, ?_, fun o ho => Memory.read_ofCells_other ho⟩⟩
  all_goals
    rintro o v xs ys rfl hlast
    exact Memory.read_ofCells_last hlast

/-- Reset changes no byte at or beyond `DST_LEN`, also where it abandons a request (log entries 10, 12). -/
theorem read_applyReset_above {s : State} (hwf : s.dst.wf = true) {o : Nat} (ho : s.dstLen ≤ o) :
    s.applyReset.dst.read o = s.dst.read o := by
  rw [State.applyReset_dst]
  split
  · rw [read_scrambleDst hwf, if_neg (Nat.not_lt.2 ho)]
  · rfl

/-- Settles O13: a reset happens whether or not a request is in progress, and scrambles `D` only where one is. -/
theorem resetClearsStatusAndKeepsTheWindows : Obligations.ResetClearsStatusAndKeepsTheWindows := by
  intro s es hwf hev
  refine ⟨_, step_takeEvent hev (.inr rfl), rfl, rfl, State.applyReset_src _, State.applyReset_cfg _,
    State.applyReset_events _, fun hidle => ?_, fun o ho => ?_⟩
  · rw [State.takeEvent_reset, State.applyReset_of_idle (s := { s with events := es }) hidle]
  · exact read_applyReset_above (s := { s with events := es }) hwf ho

/-! ### A request from its issue to its end (R23, R65, R169) -/

/-- A step that executes a request takes none of the host's events. -/
theorem events_of_executing {s t : State} (hx : Executing s) (h : step s = .next t) : t.events = s.events := by
  rw [step_executing hx.1 hx.2] at h
  rcases execute_cases s with ⟨r, he⟩ | ⟨c, he⟩ | ⟨wl, -, he⟩ <;> rw [he] at h <;> cases h
  · exact State.endRefused_events r s
  · exact State.endFault_events c s
  · exact State.endDone_events wl s

/-- After a step that executes a request, `STATUS` is not that of IDLE (R25). -/
theorem statusOutcome_of_executing {s t : State} (hx : Executing s) (h : step s = .next t) :
    statusOutcome t.status ≠ 0 := by
  rcases step_status hx.2 h with ⟨-, o, ho⟩ | ⟨hnot, -⟩
  · rw [ho, statusOutcome_recordOutcome]
    exact outcomeCode_ne_zero o
  · exact absurd hx hnot

theorem resetNext_of_head {s : State} (h : ∀ e, s.events.head? = some e → e.isReset = false) : s.resetNext = false := by
  cases hev : s.events with
  | nil => simp only [State.resetNext, hev]
  | cons e es =>
    rw [resetNext_cons hev]
    exact h e (by rw [hev, List.head?_cons])

/-- Settles O10: the first step latches the request, the second executes it. -/
theorem issuedRequestEndsInTwoSteps : Obligations.IssuedRequestEndsInTwoSteps := by
  intro s cmd a b es hidle hev hes
  have hx : Executing (({ s with events := es } : State).takeEvent (.request cmd a b)) :=
    ⟨rfl, resetNext_of_head hes⟩
  obtain ⟨u, hu⟩ := step_next (({ s with events := es } : State).takeEvent (.request cmd a b))
  exact ⟨_, u, step_takeEvent hev (.inl hidle), rfl, rfl, rfl, rfl, rfl, rfl, rfl, rfl, hu,
    inProgress_of_executing hx hu, statusOutcome_of_executing hx hu, events_of_executing hx hu⟩

/-! ### The edge-block hazard under REFERENCE (R142, R184)

A block pixel is taken by its column `X` and its row `Y` in the image padded to whole blocks. -/

/-- Two pixels at one offset are the same, or the one in the earlier row is at least a width further right (R121). -/
theorem sameOffset_cases {w X Y X' Y' : Nat} (h : w * Y' + X' = w * Y + X) :
    (Y' = Y ∧ X' = X) ∨ (Y' < Y ∧ X + w ≤ X') ∨ (Y < Y' ∧ X' + w ≤ X) := by
  rcases Nat.lt_trichotomy Y' Y with hlt | rfl | hlt
  · have hrow : w * Y' + w ≤ w * Y := Nat.mul_le_mul_left w hlt
    omega
  · omega
  · have hrow : w * Y + w ≤ w * Y' := Nat.mul_le_mul_left w hlt
    omega

/-- A pixel in column `X` and row `Y` of the padded image is last at its offset when every pixel of the padded image at
that offset is in an earlier block, or in its block in no later row (R142). -/
theorem lastAtItsOffset_of_rows {w h X Y : Nat}
    (hlast : ∀ X' Y', X' < 4 * ceilDiv4 w → Y' < 4 * ceilDiv4 h → w * Y' + X' = w * Y + X →
      Y' / 4 < Y / 4 ∨ (Y' / 4 = Y / 4 ∧ (X' / 4 < X / 4 ∨ (X' / 4 = X / 4 ∧ Y' ≤ Y)))) :
    LastAtItsOffset w h (X / 4) (Y / 4) (X % 4) (Y % 4) := by
  rintro bX bY x y ⟨hbX, hbY, hx, hy, -⟩ hoff
  rw [doff_div_mod, doff] at hoff
  have hsame : w * (4 * bY + y) + (4 * bX + x) = w * Y + X := by omega
  have horder := hlast (4 * bX + x) (4 * bY + y) (by omega) (by omega) hsame
  have hcases := sameOffset_cases hsame
  omega

/-- Under REFERENCE the byte at an offset is that of the pixel of the padded image which is last there. -/
theorem dxtByte_of_last_row {i : Instr} {s : State} (hi : isDxt i) (hwf : s.dst.wf = true)
    (href : s.cfg.writeOrder = .reference) (hready : DxtReady i s) {X Y ch : Nat} (hX : X < 4 * ceilDiv4 i.width)
    (hY : Y < 4 * ceilDiv4 i.height) (hch : ch < 4)
    (hlast : LastAtItsOffset i.width i.height (X / 4) (Y / 4) (X % 4) (Y % 4)) :
    some ((s.endDone (requestList s.cfg s.src i)).dst.read (4 * (i.width * Y + X) + ch)).toNat =
      dxtByte i s (X / 4) (Y / 4) (X % 4) (Y % 4) ch := by
  have hgrid : InGrid i.width i.height (X / 4) (Y / 4) (X % 4) (Y % 4) ch := by
    unfold InGrid
    omega
  rw [State.endDone_dst, href, ← doff_div_mod]
  exact dxtByte_of_last_pixel hi (not_requestUnset_of_dxtReady hready) s.draws hwf hgrid hlast

/-- A pixel of the image is last at its offset where no row above in its block row overflows to it from a later block;
in an image less than 4 wide the overflow comes from its own block, and is an earlier pixel of it. -/
theorem lastAtItsOffset_own {w h X Y : Nat} (hX : X < w) (hown : ¬(4 ≤ w ∧ Y % 4 ≠ 0 ∧ X + w < 4 * ceilDiv4 w)) :
    LastAtItsOffset w h (X / 4) (Y / 4) (X % 4) (Y % 4) := by
  refine lastAtItsOffset_of_rows fun X' Y' hX' _ hsame => ?_
  unfold ceilDiv4 at *
  rcases sameOffset_cases hsame with ⟨rfl, rfl⟩ | ⟨hrow, hcol⟩ | ⟨-, hcol⟩ <;> omega

/-- In an image of two block columns or more, the edge block's overflow of a row into the next one of its block row is
last at its offset: the pixel it covers is of an earlier block. -/
theorem lastAtItsOffset_overflow {w h X Y : Nat} (hw : 4 ≤ w) (hY : (Y + 1) % 4 ≠ 0) (hX : X + w < 4 * ceilDiv4 w) :
    LastAtItsOffset w h ((X + w) / 4) (Y / 4) ((X + w) % 4) (Y % 4) := by
  refine lastAtItsOffset_of_rows fun X' Y' hX' _ hsame => ?_
  have hcovered : w * Y' + X' = w * (Y + 1) + X := by
    rw [hsame, Nat.mul_succ]
    omega
  unfold ceilDiv4 at *
  rcases sameOffset_cases hcovered with ⟨rfl, rfl⟩ | ⟨hrow, hcol⟩ | ⟨-, hcol⟩ <;> omega

/-- The edge block's overflow of the last row is last at its offset: no row follows. -/
theorem lastAtItsOffset_tail {w h X : Nat} (hX : X + w < 4 * ceilDiv4 w) :
    LastAtItsOffset w h ((X + w) / 4) ((4 * ceilDiv4 h - 1) / 4) ((X + w) % 4) ((4 * ceilDiv4 h - 1) % 4) := by
  refine lastAtItsOffset_of_rows fun X' Y' hX' hY' hsame => ?_
  unfold ceilDiv4 at *
  rcases sameOffset_cases hsame with ⟨rfl, rfl⟩ | ⟨hrow, hcol⟩ | ⟨hrow, -⟩ <;> omega

/-- Settles O38: the last pixel at an offset is the edge block's overflow of the row above, or the image pixel. -/
theorem edgeBlockWinsUnderReferenceOrder : Obligations.EdgeBlockWinsUnderReferenceOrder := by
  intro i s hi hwf href hready
  have hedge : ∀ X, X + i.width < 4 * ceilDiv4 i.width → (X + i.width) / 4 = ceilDiv4 i.width - 1 := fun X hX => by
    unfold ceilDiv4 at *
    omega
  refine ⟨_, exec_of_dxtReady hready, statusIs_endDone _ s, fun X Y ch hX hY hch => ?_, fun X ch hh hX hch => ?_⟩
  · split
    case isFalse hown =>
      have hpad : X < 4 * ceilDiv4 i.width := by
        unfold ceilDiv4
        omega
      exact dxtByte_of_last_row hi hwf href hready hpad hY hch (lastAtItsOffset_own hX hown)
    case isTrue hover =>
      obtain ⟨hw, hY4, hX'⟩ := hover
      obtain ⟨Y, rfl⟩ := Nat.exists_eq_add_one_of_ne_zero (show Y ≠ 0 by omega)
      have hread := dxtByte_of_last_row hi hwf href hready hX' (Nat.lt_of_succ_lt hY) hch
        (lastAtItsOffset_overflow hw hY4 hX')
      have hoff : i.width * (Y + 1) + X = i.width * Y + (X + i.width) := by
        rw [Nat.mul_succ]
        omega
      rw [hoff, hread, hedge X hX', show (Y + 1) / 4 = Y / 4 by omega, show (Y + 1) % 4 - 1 = Y % 4 by omega]
  · have hrows : 0 < ceilDiv4 i.height := by
      unfold ceilDiv4
      omega
    have hread := dxtByte_of_last_row hi hwf href hready hX (show 4 * ceilDiv4 i.height - 1 < _ by omega) hch
      (lastAtItsOffset_tail hX)
    have hoff : i.width * (4 * ceilDiv4 i.height) + X = i.width * (4 * ceilDiv4 i.height - 1) + (X + i.width) := by
      obtain ⟨n, hn⟩ := Nat.exists_eq_add_one_of_ne_zero (show 4 * ceilDiv4 i.height ≠ 0 by omega)
      rw [hn, Nat.add_sub_cancel, Nat.mul_succ]
      omega
    rw [hoff, hread, hedge X hX, show (4 * ceilDiv4 i.height - 1) / 4 = ceilDiv4 i.height - 1 by omega,
      show (4 * ceilDiv4 i.height - 1) % 4 = 3 by omega]

end Sys2Proof.Machine
end
